-- ==== Sys2Proof/Word.lean ====
section
/-! DEFINITION. The one data type of the hardware: the byte. Every register, the program counter, the flags register,
every memory cell, every address and every operand byte is an unsigned 8-bit value (spec/00_scope.md R4, R5;
spec/20_memory.md R37). -/

namespace Sys2Proof

/-- An unsigned 8-bit value; `+`, `-` and `*` on it wrap modulo 256 (R5, R13). -/
abbrev Byte := BitVec 8

end Sys2Proof
end

