-- ==== Sys2Proof/Syntax.lean ====
section
/-! DEFINITION. The instruction set as syntax: the 32 instructions of spec/opcode_table.json (spec/00_scope.md R2;
spec/30_encoding.md R56), each with its operand bytes as the encoding carries them (R51, R53, R54). -/

namespace Sys2Proof

/-- The four instruction formats (R51). -/
inductive Format
  /-- no operand byte -/
  | f0
  /-- one register operand -/
  | f1
  /-- two register operands -/
  | f2rr
  /-- a register operand and an immediate (LDI only) -/
  | f2ri
  deriving DecidableEq, Repr

/-- How many operand bytes follow the opcode byte in a format (R50, R51). -/
def Format.operandBytes : Format → Nat
  | .f0 => 0
  | .f1 => 1
  | .f2rr => 2
  | .f2ri => 2

/-- The 32 mnemonics, the keys of the instruction table (R56). -/
inductive Mnemonic
  | hlt | ret | iret | push | pop | prn | pra | call
  | jmp | jeq | jne | jgt | jlt | jle | jge | inc
  | dec | not | ldi | ld | st | add | sub | mul
  | div | mod | cmp | and | or | xor | shl | shr
  deriving DecidableEq, Repr

/-- Every mnemonic, in the order of R56. -/
def Mnemonic.all : List Mnemonic :=
  [.hlt, .ret, .iret, .push, .pop, .prn, .pra, .call] ++
  [.jmp, .jeq, .jne, .jgt, .jlt, .jle, .jge, .inc] ++
  [.dec, .not, .ldi, .ld, .st, .add, .sub, .mul] ++
  [.div, .mod, .cmp, .and, .or, .xor, .shl, .shr]

/-- The place of a mnemonic in that order. -/
def Mnemonic.index (k : Mnemonic) : Fin 32 := Fin.ofNat 32 k.ctorIdx

/-- The format column of R56. -/
def Mnemonic.format : Mnemonic → Format
  | .hlt | .ret | .iret => .f0
  | .push | .pop | .prn | .pra | .call | .jmp | .jeq | .jne => .f1
  | .jgt | .jlt | .jle | .jge | .inc | .dec | .not => .f1
  | .ldi => .f2ri
  | .ld | .st | .add | .sub | .mul | .div | .mod | .cmp => .f2rr
  | .and | .or | .xor | .shl | .shr => .f2rr

/-- An instruction: one constructor per row of the opcode table. `a` and `b` are register operands, carried as the
whole operand byte (R53: legal values 0 to 7, Sys2Proof/WellFormed.lean); `imm` is LDI's immediate byte (R54). -/
inductive Instr
  /-- HLT: stop for good (R135). -/
  | hlt
  /-- RET: return from a subroutine (R122). -/
  | ret
  /-- IRET: return from an interrupt handler (R138). -/
  | iret
  /-- PUSH: push `x[a]` (R113). -/
  | push (a : Byte)
  /-- POP: pop into `x[a]` (R114). -/
  | pop (a : Byte)
  /-- PRN: print `x[a]` as a number (R136). -/
  | prn (a : Byte)
  /-- PRA: print `x[a]` as a character (R137). -/
  | pra (a : Byte)
  /-- CALL: call the subroutine at `x[a]` (R121). -/
  | call (a : Byte)
  /-- JMP: jump to `x[a]` (R120). -/
  | jmp (a : Byte)
  /-- JEQ: jump if equal (R124). -/
  | jeq (a : Byte)
  /-- JNE: jump if not equal (R125). -/
  | jne (a : Byte)
  /-- JGT: jump if greater (R126). -/
  | jgt (a : Byte)
  /-- JLT: jump if less (R127). -/
  | jlt (a : Byte)
  /-- JLE: jump if not greater (R128). -/
  | jle (a : Byte)
  /-- JGE: jump if not less (R129). -/
  | jge (a : Byte)
  /-- INC: add 1 (R95). -/
  | inc (a : Byte)
  /-- DEC: subtract 1 (R96). -/
  | dec (a : Byte)
  /-- NOT: complement (R101). -/
  | not (a : Byte)
  /-- LDI: load the immediate `imm` into `x[a]` (R110). -/
  | ldi (a imm : Byte)
  /-- LD: load `x[a]` from the cell `x[b]` names (R111). -/
  | ld (a b : Byte)
  /-- ST: store `x[b]` to the cell `x[a]` names (R112). -/
  | st (a b : Byte)
  /-- ADD: add (R90). -/
  | add (a b : Byte)
  /-- SUB: subtract (R91). -/
  | sub (a b : Byte)
  /-- MUL: multiply (R92). -/
  | mul (a b : Byte)
  /-- DIV: divide (R93). -/
  | div (a b : Byte)
  /-- MOD: remainder (R94). -/
  | mod (a b : Byte)
  /-- CMP: compare, into `fl` (R97). -/
  | cmp (a b : Byte)
  /-- AND: bitwise and (R98). -/
  | and (a b : Byte)
  /-- OR: bitwise or (R99). -/
  | or (a b : Byte)
  /-- XOR: bitwise exclusive or (R100). -/
  | xor (a b : Byte)
  /-- SHL: shift left (R102). -/
  | shl (a b : Byte)
  /-- SHR: shift right (R103). -/
  | shr (a b : Byte)
  deriving DecidableEq, Repr

/-- The mnemonic of an instruction. -/
def Instr.mnemonic : Instr → Mnemonic
  | .hlt => .hlt
  | .ret => .ret
  | .iret => .iret
  | .push _ => .push
  | .pop _ => .pop
  | .prn _ => .prn
  | .pra _ => .pra
  | .call _ => .call
  | .jmp _ => .jmp
  | .jeq _ => .jeq
  | .jne _ => .jne
  | .jgt _ => .jgt
  | .jlt _ => .jlt
  | .jle _ => .jle
  | .jge _ => .jge
  | .inc _ => .inc
  | .dec _ => .dec
  | .not _ => .not
  | .ldi _ _ => .ldi
  | .ld _ _ => .ld
  | .st _ _ => .st
  | .add _ _ => .add
  | .sub _ _ => .sub
  | .mul _ _ => .mul
  | .div _ _ => .div
  | .mod _ _ => .mod
  | .cmp _ _ => .cmp
  | .and _ _ => .and
  | .or _ _ => .or
  | .xor _ _ => .xor
  | .shl _ _ => .shl
  | .shr _ _ => .shr

end Sys2Proof
end

