-- ==== Sys2Proof/WellFormed.lean ====
section
/-! DEFINITION. Which instructions are well-formed: every operand byte that the format makes a register index is 0 to 7
(spec/30_encoding.md R53; spec/40_cycle.md R78). LDI's immediate is never checked (R54). -/

namespace Sys2Proof

/-- The operand bytes that are register indices, first operand first (R51, R78). -/
def Instr.registerOperands : Instr → List Byte
  | .hlt | .ret | .iret => []
  | .push a | .pop a | .prn a | .pra a | .call a | .jmp a | .jeq a | .jne a => [a]
  | .jgt a | .jlt a | .jle a | .jge a | .inc a | .dec a | .not a => [a]
  | .ldi a _ => [a]
  | .ld a b | .st a b | .add a b | .sub a b | .mul a b | .div a b | .mod a b => [a, b]
  | .cmp a b | .and a b | .or a b | .xor a b | .shl a b | .shr a b => [a, b]

/-- The operand byte RegIdx reports: the first register operand greater than 7, if there is one (R78: "When both `a`
and `b` are out of range the fault reports `a`"). -/
def Instr.badOperand? (i : Instr) : Option Byte := i.registerOperands.find? (fun k => decide (7 < k.toNat))

/-- Every register operand names one of `x[0]` to `x[7]` (R53). -/
def Instr.wf (i : Instr) : Bool := i.badOperand?.isNone

end Sys2Proof
end

