-- ==== Sys2Proof/Decode.lean ====
section
/-! DEFINITION. The instruction table, the decoder (total on any bytes, rejecting by name) and the encoder
(spec/30_encoding.md R50 to R60). Decoder and encoder take the opcode map as an argument (R57); the machine
passes the map its state holds, and R56's table is the default. -/

namespace Sys2Proof

/-! ### The instruction table -/

/-- The parameter `OPCODE_MAP`: the opcode byte of each instruction (R57). -/
abbrev OpcodeMap := Mnemonic → Byte

/-- The default opcode map, the table of R56. LDI, ADD, PRN and HLT come from the source; the other 28 bytes are
PRESUMED, unsafe (log entry 1; the spec's decision D4). -/
def defaultOpcodeMap : OpcodeMap
  | .hlt => 0x01
  | .ret => 0x11
  | .iret => 0x13
  | .push => 0x45
  | .pop => 0x46
  | .prn => 0x47
  | .pra => 0x48
  | .call => 0x50
  | .jmp => 0x54
  | .jeq => 0x55
  | .jne => 0x56
  | .jgt => 0x57
  | .jlt => 0x58
  | .jle => 0x59
  | .jge => 0x5A
  | .inc => 0x65
  | .dec => 0x66
  | .not => 0x69
  | .ldi => 0x82
  | .ld => 0x83
  | .st => 0x84
  | .add => 0xA0
  | .sub => 0xA1
  | .mul => 0xA2
  | .div => 0xA3
  | .mod => 0xA4
  | .cmp => 0xA7
  | .and => 0xA8
  | .or => 0xAA
  | .xor => 0xAB
  | .shl => 0xAC
  | .shr => 0xAD

/-- An opcode map as plain data: the 32 opcode bytes in the order of `Mnemonic.all`. -/
abbrev OpcodeTable := Vector Byte 32

/-- The table of an opcode map. -/
def OpcodeMap.table (m : OpcodeMap) : OpcodeTable := ⟨(Mnemonic.all.map m).toArray, by simp [Mnemonic.all]⟩

/-- The opcode map a table holds. -/
def OpcodeTable.map (t : OpcodeTable) : OpcodeMap := fun k => t[k.index]

/-- `opcode[7:6]` as a number: how many operand bytes follow, computed from the opcode byte alone (R50, R74). For an
opcode byte 0xC0 to 0xFF it is 3 (R59; log entry 16). -/
def operandCount (op : Byte) : Nat := (op.extractLsb 7 6).toNat

/-- What every opcode map must satisfy (R57 constraints (a), (b), (c)). -/
structure OpcodeMap.Legal (m : OpcodeMap) : Prop where
  /-- (a) no two instructions share an opcode byte -/
  injective : ∀ j k, m j = m k → j = k
  /-- (b) the four bytes the source gives -/
  ldi : m .ldi = 0x82
  add : m .add = 0xA0
  prn : m .prn = 0x47
  hlt : m .hlt = 0x01
  /-- (c) bits 7:6 are the operand count -/
  count : ∀ k, operandCount (m k) = k.format.operandBytes

/-- The table lookup: the whole opcode byte is the key (R52, R56). -/
def OpcodeMap.lookup (m : OpcodeMap) (op : Byte) : Option Mnemonic := Mnemonic.all.find? (fun k => decide (m k = op))

/-! ### Instructions from operand bytes, and back -/

/-- The operand bytes of an instruction in memory order (R51, R61). -/
def Instr.operands : Instr → List Byte
  | .hlt | .ret | .iret => []
  | .push a | .pop a | .prn a | .pra a | .call a | .jmp a | .jeq a | .jne a => [a]
  | .jgt a | .jlt a | .jle a | .jge a | .inc a | .dec a | .not a => [a]
  | .ldi a imm => [a, imm]
  | .ld a b | .st a b | .add a b | .sub a b | .mul a b | .div a b | .mod a b => [a, b]
  | .cmp a b | .and a b | .or a b | .xor a b | .shl a b | .shr a b => [a, b]

/-- The instruction with a given mnemonic and operand bytes, if their number is the format's (R51). -/
def Mnemonic.instr? : Mnemonic → List Byte → Option Instr
  | .hlt, [] => some .hlt
  | .ret, [] => some .ret
  | .iret, [] => some .iret
  | .push, [a] => some (.push a)
  | .pop, [a] => some (.pop a)
  | .prn, [a] => some (.prn a)
  | .pra, [a] => some (.pra a)
  | .call, [a] => some (.call a)
  | .jmp, [a] => some (.jmp a)
  | .jeq, [a] => some (.jeq a)
  | .jne, [a] => some (.jne a)
  | .jgt, [a] => some (.jgt a)
  | .jlt, [a] => some (.jlt a)
  | .jle, [a] => some (.jle a)
  | .jge, [a] => some (.jge a)
  | .inc, [a] => some (.inc a)
  | .dec, [a] => some (.dec a)
  | .not, [a] => some (.not a)
  | .ldi, [a, imm] => some (.ldi a imm)
  | .ld, [a, b] => some (.ld a b)
  | .st, [a, b] => some (.st a b)
  | .add, [a, b] => some (.add a b)
  | .sub, [a, b] => some (.sub a b)
  | .mul, [a, b] => some (.mul a b)
  | .div, [a, b] => some (.div a b)
  | .mod, [a, b] => some (.mod a b)
  | .cmp, [a, b] => some (.cmp a b)
  | .and, [a, b] => some (.and a b)
  | .or, [a, b] => some (.or a b)
  | .xor, [a, b] => some (.xor a b)
  | .shl, [a, b] => some (.shl a b)
  | .shr, [a, b] => some (.shr a b)
  | _, _ => none

/-! ### The decoder -/

/-- What the decoder answers (R60). -/
inductive Decoded
  /-- a known, well-formed instruction, and the bytes after it -/
  | instr (i : Instr) (rest : List Byte)
  /-- the opcode byte is not in the instruction table (R58) -/
  | unknownInstruction (opcode : Byte)
  /-- a register operand byte is greater than 7; the first such operand is reported (R78) -/
  | registerIndexOutOfRange (opcode operand : Byte)
  /-- fewer bytes than `1 + opcode[7:6]` were offered; the machine's fetch never offers fewer (log entry 25) -/
  | incomplete
  deriving DecidableEq, Repr

/-- The algorithm of R60 on a list of bytes, first byte first: the operand bytes are taken before the lookup (R75), the
lookup precedes the register-index check (R157). -/
def decodeWith (m : OpcodeMap) : List Byte → Decoded
  | [] => .incomplete
  | op :: bytes =>
    if bytes.length < operandCount op then .incomplete
    else
      match m.lookup op with
      | none => .unknownInstruction op
      | some k =>
        match k.instr? (bytes.take (operandCount op)) with
        | none => .unknownInstruction op
        | some i =>
          match i.badOperand? with
          | some o => .registerIndexOutOfRange op o
          | none => .instr i (bytes.drop (operandCount op))

/-- The decoder under the default opcode map. -/
def decode (bytes : List Byte) : Decoded := decodeWith defaultOpcodeMap bytes

/-- `n` bytes of a number, least significant byte first: the numbering of spec/opcode_table.json's words, whose bit 0 is
the least significant bit of the first byte in memory. -/
def wordBytes : Nat → Nat → List Byte
  | 0, _ => []
  | n + 1, w => BitVec.ofNat 8 w :: wordBytes n (w / 256)

/-- The most bytes an opcode byte can claim: itself and `opcode[7:6]` = 3 operand bytes (R50). -/
def maxInstrBytes : Nat := 4

/-- The bytes of a table word of `nbits` bits, every bit above `nbits` zero. -/
def tableWordBytes (nbits w : Nat) : List Byte := wordBytes maxInstrBytes (w % 2 ^ nbits)

/-- The instruction the decoder reads from a word of spec/opcode_table.json, whose opcode bytes are the default map's. -/
def decodeTableWord (nbits w : Nat) : Option Instr :=
  match decode (tableWordBytes nbits w) with
  | .instr i _ => some i
  | .unknownInstruction _ => none
  | .registerIndexOutOfRange _ _ => none
  | .incomplete => none

/-! ### The encoder -/

/-- The bytes of an instruction: the opcode byte, then the operand bytes (R50, R51). -/
def encodeWith (m : OpcodeMap) (i : Instr) : List Byte := m i.mnemonic :: i.operands

/-- The encoder under the default opcode map. -/
def encode (i : Instr) : List Byte := encodeWith defaultOpcodeMap i

end Sys2Proof
end

