-- ==== Sys2Proof/Config.lean ====
section
/-! DEFINITION. The fixed parameters of the hardware (spec/00_scope.md R4) and the reset values (spec/10_state.md R25).
The two open ones are arguments of the model: `OPCODE_MAP` and the input `tick` are fields of State, the map's default
stands in Sys2Proof/Decode.lean, and a tick under no law is the opaque `freeTick` below. The core is the interrupt-capable variant (`INT_CAPABLE` = true, log entry 20), so there is no switch. -/

namespace Sys2Proof

/-- A checked register index: `x[0]` to `x[7]` (R10; `NREG` = 8). -/
abbrev RegId := Fin 8

/-- An interrupt line, 0 to 7 (R161; `NIRQ` = 8). -/
abbrev Line := Fin 8

namespace Config

/-- `MEMSIZE`: the number of memory cells (R4, R22). -/
def memSize : Nat := 256

/-- `SP_REG`: the stack pointer is register 7 (R4, R12). -/
def spReg : RegId := 7

/-- `IM_REG`: the interrupt mask is register 5 (R4, R19). -/
def imReg : RegId := 5

/-- `IS_REG`: the interrupt status is register 6 (R4, R19). -/
def isReg : RegId := 6

/-- `TIMER_LINE`: the line the timer sets (R4, R160). -/
def timerLine : Line := 0

/-- `VEC_BASE`: the address of the vector of line 0; line `i` is at `vecBase + i` (R4, R167). -/
def vecBase : Byte := 0xF8

/-- `LOAD_BASE`: the address at which a program image is placed (R4, R183). -/
def loadBase : Byte := 0x00

/-- `SP_RESET`: the reset value of register 7 (R4, R25). -/
def spReset : Byte := 0xF4

/-- The reset value of registers 0 to 6. DESIGN CHOICE, unsafe (log entry 2; the spec's decision D3). -/
def regReset : Byte := 0x00

/-- The reset value of `pc` (R25). -/
def pcReset : Byte := 0x00

/-- The reset value of `fl` (R17, R25). -/
def flReset : Byte := 0x00

/-- What a cell that nothing has written reads as: memory is zero at reset (R25, R42). -/
def memReset : Byte := 0x00

/-- The timer input of a cycle about which nothing is said, one bit for each cycle number: a free bit under no law (R4,
R160; log entry 3). No proof can see its value. -/
opaque freeTick : Nat → Bool

end Config

end Sys2Proof
end

