-- ==== Sys2Proof/Machine/State.lean ====
section
/-! DEFINITION. The state of the machine as plain data (spec/10_state.md), the reasons a step can stop, and the state
after reset (R25, R180). -/

namespace Sys2Proof.Machine

open Sys2Proof

/-- The causes of a fatal condition, identified by name (spec/60_exceptions.md R150 to R152, R154). -/
inductive FaultCause
  /-- the opcode byte is not in the instruction table (R150) -/
  | unknownInstruction
  /-- DIV or MOD with a zero divisor (R151) -/
  | divisionByZero
  /-- a register operand byte greater than 7; records the offending byte (R152) -/
  | registerIndexOutOfRange (operand : Byte)
  deriving DecidableEq, Repr

/-- The run status (R20; the spec's decision D8, log entry 17). -/
inductive RunStatus
  /-- executes cycles -/
  | running
  /-- stopped by HLT (R135) -/
  | halted
  /-- stopped by a fatal condition, with the cause, the opcode byte and the `pc` it records (R153) -/
  | faulted (cause : FaultCause) (opcode : Byte) (pc : Byte)
  deriving DecidableEq, Repr

/-- A console output event (R21, R136, R137). -/
inductive Event
  /-- PRN: the value as a decimal number -/
  | prn (v : Byte)
  /-- PRA: the character with that code point -/
  | pra (v : Byte)
  deriving DecidableEq, Repr

/-- The 256 cells of memory (R22) as (address, byte) pairs in canonical form: addresses strictly rising, no entry equal
to what an unlisted address reads as (`Memory.wf`, Sys2Proof/Machine/Ops.lean). -/
abbrev Memory := List Host.Cell

/-- The timer input of the coming cycles (R8, R160): finitely many known bits, then silence or free bits for ever. -/
inductive TickInput
  /-- no tick is reported any more: the sequence R81 names, `tick` = 0 in every cycle -/
  | silent
  /-- nothing is said of the coming ticks: they are free bits under no law, `Config.freeTick` of the cycle number -/
  | free (cycle : Nat)
  /-- the tick of the coming cycle is this bit -/
  | bit (tick : Bool) (later : TickInput)
  deriving DecidableEq, Repr

/-- Everything the spec gives the machine (R10, R14, R17, R20, R21, R22, R24), and the two open arguments of the model
(R4): the timer input still to come and the opcode map. -/
structure State where
  /-- `x[0]` to `x[7]`; 5 is IM, 6 is IS, 7 is SP (R10, R19) -/
  regs : Vector Byte 8
  /-- the program counter (R14) -/
  pc : Byte
  /-- the flags register (R17) -/
  fl : Byte
  /-- the memory (R22) -/
  mem : Memory
  /-- the run status (R20) -/
  status : RunStatus
  /-- the console output, oldest event first (R21) -/
  out : List Event
  /-- THE MODEL'S OWN FIELD, no register: the input `tick` of the coming cycles, next cycle first (R8, R160). It is
  free: a claim for every state is a claim for every sequence of ticks (log entry 3). -/
  ticks : TickInput
  /-- THE MODEL'S OWN FIELD, configuration and no register: the parameter `OPCODE_MAP` (R4, R23, R57). No step, reset or
  LOAD changes it; a claim for every state is a claim for every opcode map (log entry 1). -/
  opcodes : OpcodeTable
  deriving DecidableEq, Repr

/-- Reasons for the outcome `fault`. The hardware's own fatal conditions are NOT here: the spec gives them a state, so
they are next states whose run status is `faulted` (log entry 4). -/
inductive Fault
  /-- Raised by `executeBytes` when it is given fewer bytes than the opcode byte claims. The fetch always delivers
  exactly that many, so no step raises it (Laws: `step_answers_next`). Safe: it could only stop a run. -/
  | incompleteFetch
  deriving DecidableEq, Repr

/-- Reasons for the outcome `refused`. -/
inductive Refusal
  /-- Raised by `exec` for an instruction without a meaning; every instruction has one, so nothing raises it. Safe. -/
  | notModelled (mnemonic : String)
  deriving DecidableEq, Repr

/-- What a step answers. -/
abbrev Result := Host.Outcome State Fault Refusal

/-- The state after reset (R25, R180), before any LOAD, for any opcode map and any ticks to come: memory zero, `x[7]` =
0xF4, the other registers zero (log entry 2), `pc` = 0, `fl` = 0, nothing emitted, running. -/
def State.resetWith (opcodes : OpcodeTable) (ticks : TickInput) : State where
  regs := #v[Config.regReset, Config.regReset, Config.regReset, Config.regReset,
    Config.regReset, Config.regReset, Config.regReset, Config.spReset]
  pc := Config.pcReset
  fl := Config.flReset
  mem := []
  status := .running
  out := []
  ticks := ticks
  opcodes := opcodes

/-- The state after reset with the default opcode map (log entry 1) and, as the named sequence of ticks, silence (log
entry 3). -/
def State.reset : State := State.resetWith defaultOpcodeMap.table .silent

end Sys2Proof.Machine
end

