-- ==== Sys2Proof/Machine/Ops.lean ====
section
/-! DEFINITION. The named operations over memory, registers, stack, console and run status (spec/00_scope.md R6;
spec/20_memory.md R30 to R36), raising a fault (spec/60_exceptions.md R153), and taking an interrupt (R165) with the
return from it beside it (spec/44_system_io.md R138). -/

namespace Sys2Proof.Machine

open Sys2Proof

/-! ### Memory as a sorted list of cells -/

/-- The byte at an address; an unlisted address reads as the reset contents (R31, R42). -/
def Memory.read : Memory → Nat → Byte
  | [], _ => Config.memReset
  | (k, v) :: m, a => if k = a then v else Memory.read m a

/-- Forget what is listed for an address. -/
def Memory.erase : Memory → Nat → Memory
  | [], _ => []
  | (k, v) :: m, a => if k = a then Memory.erase m a else (k, v) :: Memory.erase m a

/-- List a byte for an address that is not listed, before the first greater address. -/
def Memory.insert : Memory → Nat → Byte → Memory
  | [], a, v => [(a, v)]
  | (k, w) :: m, a, v => if a < k then (a, v) :: (k, w) :: m else (k, w) :: Memory.insert m a v

/-- Set the byte at an address (R32), keeping the canonical form: writing the reset contents lists nothing. -/
def Memory.write (m : Memory) (a : Nat) (v : Byte) : Memory :=
  if v = Config.memReset then Memory.erase m a else Memory.insert (Memory.erase m a) a v

/-- The canonical form from a lowest address on: addresses strictly rising and below 256, no byte equal to the reset
contents. -/
def Memory.wfFrom : Nat → Memory → Bool
  | _, [] => true
  | lo, (k, v) :: m =>
    decide (lo ≤ k) && decide (k < Config.memSize) && decide (v ≠ Config.memReset) && Memory.wfFrom (k + 1) m

/-- The memory is in canonical form. -/
def Memory.wf (m : Memory) : Bool := Memory.wfFrom 0 m

/-! ### The state's accessors -/

/-- `x[r]` (R6, R10). -/
def State.reg (s : State) (r : RegId) : Byte := s.regs[r]

/-- `x[r] <- v` (R6, R10, R11: registers 5, 6 and 7 are written like the others). -/
def State.setReg (s : State) (r : RegId) (v : Byte) : State := { s with regs := s.regs.set r v }

/-- `pc <- target` (R6, R14). -/
def State.setPc (s : State) (target : Byte) : State := { s with pc := target }

/-- `fl <- v` (R6, R17). -/
def State.setFl (s : State) (v : Byte) : State := { s with fl := v }

/-- `MemRead(addr, 1)` (R31). -/
def State.memRead (s : State) (addr : Byte) : Byte := Memory.read s.mem addr.toNat

/-- `MemWrite(addr, 1, v)` (R32). -/
def State.memWrite (s : State) (addr v : Byte) : State := { s with mem := Memory.write s.mem addr.toNat v }

/-- `MemWrite` of consecutive bytes, first byte first (the loop of R183). -/
def State.memWriteAll : State → Byte → List Byte → State
  | s, _, [] => s
  | s, addr, v :: vs => State.memWriteAll (s.memWrite addr v) (addr + 1) vs

/-- The opcode map the core is built with (R4, R23). -/
def State.opcodeMap (s : State) : OpcodeMap := s.opcodes.map

/-! ### The stack -/

/-- `Push(v)`: decrement `x[7]`, then write at it; no bounds (R34, R36). `v` is computed before (log entry 8). -/
def State.push (s : State) (v : Byte) : State :=
  (s.setReg Config.spReg (s.reg Config.spReg - 1)).memWrite (s.reg Config.spReg - 1) v

/-- The value `Pop()` returns: the byte at the stack pointer (R35). -/
def State.top (s : State) : Byte := s.memRead (s.reg Config.spReg)

/-- The state `Pop()` leaves: `x[7]` incremented, memory as it was (R35, R36). -/
def State.drop (s : State) : State := s.setReg Config.spReg (s.reg Config.spReg + 1)

/-- `x[r] <- Pop()`: the register is written last, so a pop into `x[7]` keeps the popped byte (R114; log entry 8). -/
def State.popReg (s : State) (r : RegId) : State := s.drop.setReg r s.top

/-- `Push(x[r])` for each register of a list in turn. -/
def State.pushRegs : State → List RegId → State
  | s, [] => s
  | s, r :: rs => State.pushRegs (s.push (s.reg r)) rs

/-- `x[r] <- Pop()` for each register of a list in turn. -/
def State.popRegs : State → List RegId → State
  | s, [] => s
  | s, r :: rs => State.popRegs (s.popReg r) rs

/-! ### Console and run status -/

/-- `Emit(e)`: append an event to the console output (R6, R21). -/
def State.emit (s : State) (e : Event) : State := { s with out := s.out ++ [e] }

/-- `halt`: the run status becomes `Halted`; everything else keeps its value (R135). -/
def State.halt (s : State) : State := { s with status := .halted }

/-- `raise`: the run status becomes `Faulted(cause, opcode, pc)` with the current, already advanced `pc`; nothing is
pushed, nothing redirected, everything else keeps its value (R153; log entry 17). -/
def State.raise (s : State) (cause : FaultCause) (opcode : Byte) : State :=
  { s with status := .faulted cause opcode s.pc }

/-- The decimal digits of a byte, most significant first, no leading zeros. -/
def decimalDigits (v : Byte) : List Nat :=
  (if 100 ≤ v.toNat then [v.toNat / 100] else []) ++ (if 10 ≤ v.toNat then [v.toNat / 10 % 10] else []) ++
    [v.toNat % 10]

/-- The text of an event as code points: PRN's decimal numeral and a newline U+000A (R136), PRA's one character (R137);
the details are the spec's decision D18 (log entry 15). -/
def Event.text : Event → List Nat
  | .prn v => (decimalDigits v).map (fun d => 0x30 + d) ++ [0x0A]
  | .pra v => [v.toNat]

/-! ### Interrupts: taking one, and the return -/

/-- `pending = x[5] & x[6]` (R162). -/
def State.pending (s : State) : Byte := s.reg Config.imReg &&& s.reg Config.isReg

/-- The lines, lowest first. -/
def lines : List Line := [0, 1, 2, 3, 4, 5, 6, 7]

/-- The least line whose bit is set: the one dispatched (R163). -/
def lowestLine? (pending : Byte) : Option Line := lines.find? (fun i => pending.getLsbD i)

/-- `1 << i`. -/
def lineBit (i : Line) : Byte := 1#8 <<< i.val

/-- The address of the vector of a line (R167). -/
def vectorAddr (i : Line) : Byte := Config.vecBase + BitVec.ofNat 8 i.val

/-- The registers dispatch pushes, in the order it pushes them (R165). -/
def frameRegs : List RegId := [6, 5, 4, 3, 2, 1, 0]

/-- `Dispatch` for the chosen line: clear its status bit, push `pc`, `fl` and registers 6 down to 0, and continue at the
byte the vector holds (R165). No line is masked on entry (R168; log entry 11). -/
def State.dispatch (s : State) (i : Line) : State :=
  let s := s.setReg Config.isReg (s.reg Config.isReg &&& ~~~lineBit i)
  let s := ((s.push s.pc).push s.fl).pushRegs frameRegs
  s.setPc (s.memRead (vectorAddr i))

/-- The effect of IRET: pop registers 0 to 6 ascending, then `fl`, then `pc` (R138; log entry 12). -/
def State.returnFromInterrupt (s : State) : State :=
  let s := s.popRegs frameRegs.reverse
  let s := s.drop.setFl s.top
  s.drop.setPc s.top

end Sys2Proof.Machine
end

