-- ==== Sys2Proof/Machine/Operands.lean ====
section
/-! DEFINITION. The operand forms (spec/30_encoding.md R51, R53 to R55): a register operand is an operand byte that is
checked before the instruction has any effect (spec/40_cycle.md R78). LDI's immediate is the operand byte itself and
needs no definition. -/

namespace Sys2Proof.Machine

open Sys2Proof

/-- `RegIdx`: the register an operand byte names, if it names one (R53, R78). -/
def regIdx? (k : Byte) : Option RegId := if h : k.toNat < 8 then some ⟨k.toNat, h⟩ else none

/-- The operand byte that names a register (R53: `x[0]` to `x[7]` by 0 to 7). -/
def regByte (r : RegId) : Byte := BitVec.ofNat 8 r.val

/-- One register operand: the check, then the effect (R78). -/
def withReg (m : Mnemonic) (a : Byte) (s : State) (effect : RegId → Result) : Result :=
  match regIdx? a with
  | none => .next (s.raise (.registerIndexOutOfRange a) (s.opcodeMap m))
  | some ra => effect ra

/-- Two register operands: both are checked before the effect, the first one first (R78). -/
def withRegs (m : Mnemonic) (a b : Byte) (s : State) (effect : RegId → RegId → Result) : Result :=
  withReg m a s fun ra => withReg m b s fun rb => effect ra rb

end Sys2Proof.Machine
end

