-- ==== Sys2Proof/Machine/Flags.lean ====
section
/-! DEFINITION. The flags register: what CMP computes for it (spec/41_alu.md R97; spec/10_state.md R17) and the
conditions of the six conditional jumps on it (spec/43_control_flow.md R123). -/

namespace Sys2Proof.Machine

open Sys2Proof

/-- The value of `fl` after a comparison that found equal. -/
def flEqual : Byte := 1

/-- The value of `fl` after a comparison that found greater. -/
def flGreater : Byte := 2

/-- The value of `fl` after a comparison that found less. -/
def flLess : Byte := 4

/-- What CMP puts in `fl` for two register values, compared as unsigned numbers (R97). -/
def compareFlags (x y : Byte) : Byte :=
  if x.toNat < y.toNat then flLess else if y.toNat < x.toNat then flGreater else flEqual

/-- JEQ's condition (R123; the whole value is tested, log entry 9). -/
def condEq (fl : Byte) : Bool := fl == flEqual

/-- JNE's condition: the negation of JEQ's (R123; log entry 9). -/
def condNe (fl : Byte) : Bool := fl != flEqual

/-- JGT's condition (R123; log entry 9). -/
def condGt (fl : Byte) : Bool := fl == flGreater

/-- JLT's condition (R123; log entry 9). -/
def condLt (fl : Byte) : Bool := fl == flLess

/-- JLE's condition: "not greater" (R123). -/
def condLe (fl : Byte) : Bool := fl != flGreater

/-- JGE's condition: "not less" (R123). -/
def condGe (fl : Byte) : Bool := fl != flLess

end Sys2Proof.Machine
end

