-- ==== Sys2Proof/Machine/Alu.lean ====
section
/-! DEFINITION. The ALU family (spec/41_alu.md R90 to R105): ADD, SUB, MUL, DIV, MOD, INC, DEC, CMP, AND, OR, XOR, NOT,
SHL, SHR. On entry `pc` is already the address of the next instruction (R77). -/

namespace Sys2Proof.Machine

open Sys2Proof

/-- The two-register form that writes its result to the first register (R104): both values are read before the write. -/
def aluBinary (m : Mnemonic) (f : Byte → Byte → Byte) (a b : Byte) (s : State) : Result :=
  withRegs m a b s fun ra rb => .next (s.setReg ra (f (s.reg ra) (s.reg rb)))

/-- The two-register form that faults on a zero divisor before it writes anything (R93, R94, R151). -/
def aluDivide (m : Mnemonic) (f : Byte → Byte → Byte) (a b : Byte) (s : State) : Result :=
  withRegs m a b s fun ra rb =>
    if s.reg rb = 0 then .next (s.raise .divisionByZero (s.opcodeMap m))
    else .next (s.setReg ra (f (s.reg ra) (s.reg rb)))

/-- The one-register form (R104). -/
def aluUnary (m : Mnemonic) (f : Byte → Byte) (a : Byte) (s : State) : Result :=
  withReg m a s fun ra => .next (s.setReg ra (f (s.reg ra)))

/-- SHL's result: the amount is the whole second value, not reduced modulo 8 (R102, R105). -/
def shiftLeft (x y : Byte) : Byte := x <<< y.toNat

/-- SHR's result: a logical shift by the whole second value (R103, R105). -/
def shiftRight (x y : Byte) : Byte := x >>> y.toNat

/-- ADD (R90). -/
def execAdd (a b : Byte) (s : State) : Result := aluBinary .add (fun x y => x + y) a b s

/-- SUB (R91). -/
def execSub (a b : Byte) (s : State) : Result := aluBinary .sub (fun x y => x - y) a b s

/-- MUL (R92): the low 8 bits of the product. -/
def execMul (a b : Byte) (s : State) : Result := aluBinary .mul (fun x y => x * y) a b s

/-- DIV (R93): the unsigned quotient. -/
def execDiv (a b : Byte) (s : State) : Result := aluDivide .div (fun x y => x / y) a b s

/-- MOD (R94): the unsigned remainder. -/
def execMod (a b : Byte) (s : State) : Result := aluDivide .mod (fun x y => x % y) a b s

/-- INC (R95). -/
def execInc (a : Byte) (s : State) : Result := aluUnary .inc (fun x => x + 1) a s

/-- DEC (R96). -/
def execDec (a : Byte) (s : State) : Result := aluUnary .dec (fun x => x - 1) a s

/-- CMP (R97): overwrites the whole of `fl`, writes no register. -/
def execCmp (a b : Byte) (s : State) : Result :=
  withRegs .cmp a b s fun ra rb => .next (s.setFl (compareFlags (s.reg ra) (s.reg rb)))

/-- AND (R98). -/
def execAnd (a b : Byte) (s : State) : Result := aluBinary .and (fun x y => x &&& y) a b s

/-- OR (R99). -/
def execOr (a b : Byte) (s : State) : Result := aluBinary .or (fun x y => x ||| y) a b s

/-- XOR (R100). -/
def execXor (a b : Byte) (s : State) : Result := aluBinary .xor (fun x y => x ^^^ y) a b s

/-- NOT (R101). -/
def execNot (a : Byte) (s : State) : Result := aluUnary .not (fun x => ~~~x) a s

/-- SHL (R102). -/
def execShl (a b : Byte) (s : State) : Result := aluBinary .shl shiftLeft a b s

/-- SHR (R103). -/
def execShr (a b : Byte) (s : State) : Result := aluBinary .shr shiftRight a b s

end Sys2Proof.Machine
end

