-- ==== Sys2Proof/Machine/Control.lean ====
section
/-! DEFINITION. Control flow (spec/43_control_flow.md R120 to R131): JMP, the six conditional jumps, CALL, RET. On entry
`pc` is already the address of the next instruction (R77), which is where a jump that is not taken leaves it (R130). -/

namespace Sys2Proof.Machine

open Sys2Proof

/-- A conditional jump: the operand is checked whether or not the condition on `fl` holds (R123, R124). -/
def jumpIf (m : Mnemonic) (cond : Byte → Bool) (a : Byte) (s : State) : Result :=
  withReg m a s fun ra => .next (if cond s.fl then s.setPc (s.reg ra) else s)

/-- JMP (R120). -/
def execJmp (a : Byte) (s : State) : Result := withReg .jmp a s fun ra => .next (s.setPc (s.reg ra))

/-- JEQ (R124). -/
def execJeq (a : Byte) (s : State) : Result := jumpIf .jeq condEq a s

/-- JNE (R125). -/
def execJne (a : Byte) (s : State) : Result := jumpIf .jne condNe a s

/-- JGT (R126). -/
def execJgt (a : Byte) (s : State) : Result := jumpIf .jgt condGt a s

/-- JLT (R127). -/
def execJlt (a : Byte) (s : State) : Result := jumpIf .jlt condLt a s

/-- JLE (R128). -/
def execJle (a : Byte) (s : State) : Result := jumpIf .jle condLe a s

/-- JGE (R129). -/
def execJge (a : Byte) (s : State) : Result := jumpIf .jge condGe a s

/-- CALL (R121): push the return address, then read the register (log entry 8). -/
def execCall (a : Byte) (s : State) : Result :=
  withReg .call a s fun ra => .next ((s.push s.pc).setPc ((s.push s.pc).reg ra))

/-- RET (R122): pop the return address. -/
def execRet (s : State) : Result := .next (s.drop.setPc s.top)

end Sys2Proof.Machine
end

