-- ==== Sys2Proof/Machine/Data.lean ====
section
/-! DEFINITION. Data movement and stack (spec/42_data_and_stack.md R110 to R115): LDI, LD, ST, PUSH, POP. On entry `pc`
is already the address of the next instruction (R77). -/

namespace Sys2Proof.Machine

open Sys2Proof

/-- LDI (R110): the second operand byte is an immediate and is not checked (R54; log entry 24). -/
def execLdi (a imm : Byte) (s : State) : Result := withReg .ldi a s fun ra => .next (s.setReg ra imm)

/-- LD (R111): the destination is the first operand, the address register the second (log entry 7). -/
def execLd (a b : Byte) (s : State) : Result :=
  withRegs .ld a b s fun ra rb => .next (s.setReg ra (s.memRead (s.reg rb)))

/-- ST (R112): the address register is the first operand, the value register the second (log entry 7). -/
def execSt (a b : Byte) (s : State) : Result :=
  withRegs .st a b s fun ra rb => .next (s.memWrite (s.reg ra) (s.reg rb))

/-- PUSH (R113): the value is read before the stack pointer moves (log entry 8). -/
def execPush (a : Byte) (s : State) : Result := withReg .push a s fun ra => .next (s.push (s.reg ra))

/-- POP (R114): the destination is written last (log entry 8). -/
def execPop (a : Byte) (s : State) : Result := withReg .pop a s fun ra => .next (s.popReg ra)

end Sys2Proof.Machine
end

