-- ==== Sys2Proof/Machine/System.lean ====
section
/-! DEFINITION. System and output (spec/44_system_io.md R135 to R139): HLT, PRN, PRA, IRET. There is one mode, so all
four are always allowed (R139, R170). -/

namespace Sys2Proof.Machine

open Sys2Proof

/-- HLT (R135). -/
def execHlt (s : State) : Result := .next s.halt

/-- PRN (R136). -/
def execPrn (a : Byte) (s : State) : Result := withReg .prn a s fun ra => .next (s.emit (.prn (s.reg ra)))

/-- PRA (R137). -/
def execPra (a : Byte) (s : State) : Result := withReg .pra a s fun ra => .next (s.emit (.pra (s.reg ra)))

/-- IRET (R138). -/
def execIret (s : State) : Result := .next s.returnFromInterrupt

end Sys2Proof.Machine
end

