-- ==== Sys2Proof/Machine/Cycle.lean ====
section
/-! DEFINITION. One pass of the fetch-decode-execute loop (spec/40_cycle.md R70 to R82): interrupt check, timer check,
fetch, look up and execute. -/

namespace Sys2Proof.Machine

open Sys2Proof

/-- Phase 1: if a line is pending, dispatch the lowest one, and at most that one (R70, R71, R163). -/
def State.interruptCheck (s : State) : State :=
  match lowestLine? s.pending with
  | none => s
  | some i => s.dispatch i

/-- Phase 2: a tick sets the timer's status bit (R72, R160). -/
def State.timerCheck (s : State) (tick : Bool) : State :=
  if tick then s.setReg Config.isReg (s.reg Config.isReg ||| lineBit Config.timerLine) else s

/-- `FetchByte()`: the byte it returns is the one at `pc` (R73). -/
def State.fetchedByte (s : State) : Byte := s.memRead s.pc

/-- `FetchByte()`: it leaves `pc` advanced by one, wrapping at 256 (R73, R16). -/
def State.advance (s : State) : State := s.setPc (s.pc + 1)

/-- `n` calls of `FetchByte()`: the bytes, in address order (R75). -/
def State.fetchedBytes : State → Nat → List Byte
  | _, 0 => []
  | s, n + 1 => s.fetchedByte :: State.fetchedBytes s.advance n

/-- `n` calls of `FetchByte()`: the state they leave. -/
def State.advanceBy : State → Nat → State
  | s, 0 => s
  | s, n + 1 => State.advanceBy s.advance n

/-- Phase 3: the opcode byte and the operand bytes its bits 7:6 claim, fetched before the lookup (R73 to R75). -/
def State.instructionBytes (s : State) : List Byte :=
  s.fetchedByte :: s.advance.fetchedBytes (operandCount s.fetchedByte)

/-- Phase 3: the state it leaves, `pc` = `(A + 1 + n) mod 256` (R15, R75). -/
def State.afterFetch (s : State) : State := s.advance.advanceBy (operandCount s.fetchedByte)

/-- Phase 4 on the bytes fetched: look up, check, execute (R76 to R78, R60), under the
state's opcode map. The state is the one the fetch left. -/
def executeBytes (bytes : List Byte) (s : State) : Result :=
  match decodeWith s.opcodeMap bytes with
  | .instr i _ => exec i s
  | .unknownInstruction op => .next (s.raise .unknownInstruction op)
  | .registerIndexOutOfRange op k => .next (s.raise (.registerIndexOutOfRange k) op)
  | .incomplete => .fault .incompleteFetch

/-- The state in which a cycle fetches: after phases 1 and 2. -/
def State.atFetch (s : State) (tick : Bool) : State := s.interruptCheck.timerCheck tick

/-- `Cycle(tick)`; its precondition, run status `Running`, is the step's to check (R70). -/
def cycle (tick : Bool) (s : State) : Result :=
  executeBytes (s.atFetch tick).instructionBytes (s.atFetch tick).afterFetch

/-- The tick of the coming cycle (log entry 3). -/
def TickInput.head : TickInput → Bool
  | .silent => false
  | .free cycle => Config.freeTick cycle
  | .bit tick _ => tick

/-- The ticks of the cycles after the coming one. -/
def TickInput.tail : TickInput → TickInput
  | .silent => .silent
  | .free cycle => .free (cycle + 1)
  | .bit _ later => later

/-- The tick input of the coming cycle. -/
def State.nextTick (s : State) : Bool := s.ticks.head

/-- The state with the coming cycle's tick input taken. -/
def State.takeTick (s : State) : State := { s with ticks := s.ticks.tail }

end Sys2Proof.Machine
end

