-- ==== Sys2Proof/Machine/Step.lean ====
section
/-! DEFINITION. The step of the machine: one cycle while the core runs, nothing once it has stopped (spec/10_state.md
R20; spec/40_cycle.md R70). -/

namespace Sys2Proof.Machine

open Sys2Proof

/-- One step. A running core takes the next tick input and does one cycle; a stopped core does nothing, for good, and is
the state it was (R20, R171; log entry 5). -/
def step (s : State) : Host.Outcome State Fault Refusal :=
  match s.status with
  | .running => cycle s.nextTick s.takeTick
  | .halted => .next s
  | .faulted _ _ _ => .next s

/-- The state with a table word stored where the next step fetches: at `pc`, or, if a line is pending, at the byte the
vector of the line to be dispatched holds. A stopped core fetches nothing, so the core is made to run. (With a line
pending, a vector whose own handler bytes cover the vector table or the nine cells of the frame is overwritten by this
store or by the dispatch; from `State.reset` nothing is pending. The word is one of spec/opcode_table.json, so it means
its row where the state's opcode map is the default one, as in `State.reset`.) -/
def State.withFetchWord (s : State) (nbits w : Nat) : State :=
  { s with status := .running }.memWriteAll (s.atFetch s.nextTick).pc (tableWordBytes nbits w)

end Sys2Proof.Machine
end

