-- ==== Sys2Proof/Machine/Load.lean ====
section
/-! DEFINITION. What the host does to the core (spec/00_scope.md R8; spec/70_reset_and_hazards.md R180 to R183): reset,
and LOAD. That LOAD happens only before the first cycle is said by `Booted` (Sys2Proof/Safety.lean). -/

namespace Sys2Proof.Machine

open Sys2Proof

/-- Reset is total: whatever the state was, the core is as after construction (R180; R181, log entry 18). The timer lies outside the
core and the opcode map is what the core is built with, so neither is touched. -/
def State.hostReset (s : State) : State := State.resetWith s.opcodes s.ticks

/-- `LOAD(words)`: the bytes go to memory from address 0 on; more than 256 are no LOAD at all (R183; log entry 14). -/
def State.load (s : State) (words : List Byte) : Option State :=
  if words.length ≤ Config.memSize then some (s.memWriteAll Config.loadBase words) else none

end Sys2Proof.Machine
end

