-- ==== Sys2Proof/Safety.lean ====
section
/-! DEFINITION. The words the statements use: what two states share, the invariant of a run, which states the host can
start a run from, and which states a run reaches. -/

namespace Sys2Proof.Machine

open Sys2Proof

/-- The core executes cycles (spec/10_state.md R20). -/
abbrev State.isRunning (s : State) : Prop := s.status = .running

/-- Every byte of memory reads the same in both states. -/
def SameMemory (s t : State) : Prop := ∀ addr : Byte, t.memRead addr = s.memRead addr

/-- Every byte of memory but those at the listed addresses reads the same in both states. -/
def SameMemoryBut (addrs : List Byte) (s t : State) : Prop :=
  ∀ addr : Byte, addr ∉ addrs → t.memRead addr = s.memRead addr

/-- Every register but the listed ones holds the same value in both states. -/
def SameRegsBut (rs : List RegId) (s t : State) : Prop := ∀ r : RegId, r ∉ rs → t.reg r = s.reg r

/-- The open arguments of the model, the coming ticks and the opcode map, are the same in both states. -/
def SameArguments (s t : State) : Prop := t.ticks = s.ticks ∧ t.opcodes = s.opcodes

/-- Console output, run status and the open arguments are the same in both states. -/
def SameOutside (s t : State) : Prop := t.out = s.out ∧ t.status = s.status ∧ SameArguments s t

/-- The run status is the one before, or a fault was raised. -/
def StatusSameOrFault (s t : State) : Prop :=
  t.status = s.status ∨ ∃ cause op, t.status = .faulted cause op t.pc

/-- The state in which the next step fetches, given that the core runs: the tick taken, phases 1 and 2 done (R70). -/
def State.fetchState (s : State) : State := s.takeTick.atFetch s.nextTick

/-- The four bytes from `pc` on, wrapping at 256: at least a whole instruction (R50, R16). -/
def State.bytesAtPc (s : State) : List Byte :=
  [s.memRead s.pc, s.memRead (s.pc + 1), s.memRead (s.pc + 2), s.memRead (s.pc + 3)]

/-- A recorded fault is true to the machine: its `pc` is the frozen `pc`, and its opcode byte is one that can raise its
cause (spec/60_exceptions.md R150 to R153). -/
def FaultRecordTrue (s : State) : Prop :=
  ∀ cause op p, s.status = .faulted cause op p →
    p = s.pc ∧
    match cause with
    | .unknownInstruction => ∀ k, s.opcodeMap k ≠ op
    | .divisionByZero => op = s.opcodeMap .div ∨ op = s.opcodeMap .mod
    | .registerIndexOutOfRange o => 7 < o.toNat ∧ ∃ k, s.opcodeMap k = op ∧ k.format ≠ .f0

/-- The invariant of the machine: the opcode map meets the constraints of R57, the memory is in canonical form and a
recorded fault is true. -/
structure State.Inv (s : State) : Prop where
  opcodes : s.opcodeMap.Legal
  memory : Memory.wf s.mem = true
  fault : FaultRecordTrue s

/-- The values CMP and reset leave in `fl` (spec/10_state.md R17). -/
def FlDefined (s : State) : Prop := s.fl = 0 ∨ s.fl = 1 ∨ s.fl = 2 ∨ s.fl = 4

/-- The states in which the first cycle of a run may begin: a reset, whatever the core was, whatever the timer will
report and whatever legal opcode map the core is built with, then LOAD zero or more times (spec/70_reset_and_hazards.md R181, R182). -/
inductive Booted : State → Prop
  | reset (s : State) : s.opcodeMap.Legal → Booted s.hostReset
  | load {s t : State} (words : List Byte) : Booted s → s.load words = some t → Booted t

/-- The states a run reaches (R182, R82). -/
inductive Reachable : State → Prop
  | boot {s : State} : Booted s → Reachable s
  | step {s t : State} : Reachable s → step s = .next t → Reachable t

end Sys2Proof.Machine
end

