-- ==== Sys2Proof/Certificates/Slice0/Obligations.lean ====
section
/-! DEFINITION. The statements about the machine, one `def Obligations.<Name> : Prop` each; their order and sources are
in OBLIGATIONS.json. A register operand that is in range is written `regByte r` for a register `r` (every form 0 to 7);
the out-of-range forms have statements of their own. -/

open Sys2Proof Sys2Proof.Machine

/-! ### Encoding -/

/-- Decoding the encoding of a well-formed instruction gives it back and leaves the bytes after it, whatever legal
opcode map is in force (30_encoding.md sections 1 to 4). -/
def Obligations.DecodeOfEncodeIsTheInstruction : Prop :=
  ∀ (m : OpcodeMap) (i : Instr) (rest : List Byte), m.Legal → i.wf = true →
    decodeWith m (encodeWith m i ++ rest) = .instr i rest

/-- What decodes to an instruction is that instruction's encoding, and the instruction is well-formed: no word has two
readings and no bit is dropped (30_encoding.md sections 1 to 4). That a register byte above 7 decodes to no instruction,
rather than having its high bits dropped, is the spec's decision D6, log entry 6. -/
def Obligations.EncodeOfDecodeIsTheBytes : Prop :=
  ∀ (m : OpcodeMap) (bytes : List Byte) (i : Instr) (rest : List Byte),
    decodeWith m bytes = .instr i rest → i.wf = true ∧ bytes = encodeWith m i ++ rest

/-- An instruction is `1 + opcode[7:6]` bytes long, a length the first byte alone tells. -/
def Obligations.InstructionLengthIsOnePlusOpcodeBits : Prop :=
  ∀ (m : OpcodeMap) (i : Instr), m.Legal →
    (encodeWith m i).length = 1 + ((m i.mnemonic).toNat / 64) ∧ (m i.mnemonic).toNat / 64 ≤ 2

/-- The decoder's answer on any bytes that hold the operand bytes the opcode byte claims: an opcode byte of no
instruction is unknown, whatever the operand bytes; one of an instruction gives that instruction, or the first register
operand above 7 (the latter is the spec's decision D6, log entry 6; immediates are never checked, log entry 24). -/
def Obligations.DecoderClassifiesEveryByteSequence : Prop :=
  ∀ (m : OpcodeMap) (op a b : Byte) (rest : List Byte), m.Legal →
    ((∀ k, m k ≠ op) → ∀ tail, op.toNat / 64 ≤ tail.length → decodeWith m (op :: tail) = .unknownInstruction op) ∧
    ∀ k, m k = op →
      match k.format with
      | .f0 => ∃ i : Instr, i.mnemonic = k ∧ decodeWith m (op :: rest) = .instr i rest
      | .f1 => decodeWith m (op :: a :: rest) =
          if 7 < a.toNat then .registerIndexOutOfRange op a
          else match k.instr? [a] with
            | some i => .instr i rest
            | none => .incomplete
      | .f2rr => decodeWith m (op :: a :: b :: rest) =
          if 7 < a.toNat then .registerIndexOutOfRange op a
          else if 7 < b.toNat then .registerIndexOutOfRange op b
          else match k.instr? [a, b] with
            | some i => .instr i rest
            | none => .incomplete
      | .f2ri => decodeWith m (op :: a :: b :: rest) =
          if 7 < a.toNat then .registerIndexOutOfRange op a else .instr (.ldi a b) rest

/-- Words written out from the spec's encodings decode to their instructions, one of every family, under the default map,
and two words decode to no instruction. (ADD R0,R1 and LDI R0,8, PRN R0, HLT are the source's own bytes and the other
opcode bytes are log entry 1; that A0 08 01 is refused for its operand byte 8 is the spec's decision D6, log entry 6; that
C5 is an unknown instruction is D5, log entry 16.) -/
def Obligations.SampleWordsDecode : Prop :=
  decode [0xA0, 0x00, 0x01] = .instr (.add 0 1) [] ∧ decode [0x82, 0x00, 0x08] = .instr (.ldi 0 8) [] ∧
  decode [0x47, 0x00] = .instr (.prn 0) [] ∧ decode [0x01] = .instr .hlt [] ∧
  decode [0x83, 0x04, 0x03] = .instr (.ld 4 3) [] ∧ decode [0x50, 0x01] = .instr (.call 1) [] ∧
  decode [0x58, 0x04] = .instr (.jlt 4) [] ∧ decode [0x13] = .instr .iret [] ∧
  decode [0xA0, 0x08, 0x01] = .registerIndexOutOfRange 0xA0 0x08 ∧
  decode [0xC5, 0x01, 0x02, 0x03] = .unknownInstruction 0xC5

/-! ### State, memory, stack -/

/-- What a reset leaves, at construction as the source gives it and from any state later: memory zero, the stack pointer
0xF4, `pc` and `fl` zero, nothing emitted, and a core that runs; a later reset keeps the coming ticks and the opcode map.
(That a later reset is total, memory included, is the spec's decision D24, log entry 18. That it keeps the two arguments,
the model's own fields, is log entries 1 and 3. That the run status is a state is D8, log entry 17. That the output is empty
the spec derives from R21. The zero of registers 0 to 6 is the model's choice, log entry 2, and is not stated.) -/
def Obligations.ResetStateIsTheSources : Prop :=
  ∀ s t : State, t = State.reset ∨ t = s.hostReset →
    (∀ addr : Byte, t.memRead addr = 0) ∧ t.reg 7 = 0xF4 ∧ t.pc = 0 ∧ t.fl = 0 ∧ t.out = [] ∧ t.status = .running ∧
      (t = s.hostReset → SameArguments s t)

/-- Writing a register changes that register and nothing else; every register, 5, 6 and 7 included, is written so. -/
def Obligations.RegisterWriteChangesOnlyThatRegister : Prop :=
  ∀ (s : State) (r : RegId) (v : Byte),
    (s.setReg r v).reg r = v ∧ SameRegsBut [r] s (s.setReg r v) ∧ (s.setReg r v).pc = s.pc ∧
      (s.setReg r v).fl = s.fl ∧ SameMemory s (s.setReg r v) ∧ SameOutside s (s.setReg r v)

/-- A memory write sets the one cell and no other, whatever the memory holds, and an instruction fetch sees it too. -/
def Obligations.MemoryWriteSetsOneCell : Prop :=
  ∀ (s : State) (addr v : Byte),
    (s.memWrite addr v).memRead addr = v ∧ SameMemoryBut [addr] s (s.memWrite addr v) ∧
      ((s.memWrite addr v).setPc addr).fetchedByte = v ∧ SameRegsBut [] s (s.memWrite addr v) ∧
      (s.memWrite addr v).pc = s.pc ∧ (s.memWrite addr v).fl = s.fl ∧ SameOutside s (s.memWrite addr v)

/-- `Push(v)`: the stack pointer goes down by one, wrapping, and the byte goes to the new top; nothing else changes. -/
def Obligations.PushWritesBelowTheStackPointer : Prop :=
  ∀ (s : State) (v : Byte),
    (s.push v).reg 7 = s.reg 7 - 1 ∧ (s.push v).memRead (s.reg 7 - 1) = v ∧ SameRegsBut [7] s (s.push v) ∧
      SameMemoryBut [s.reg 7 - 1] s (s.push v) ∧ (s.push v).pc = s.pc ∧ (s.push v).fl = s.fl ∧
      SameOutside s (s.push v)

/-- `Pop()`: it returns the byte at the stack pointer and increments the pointer, wrapping; the cell keeps its value. -/
def Obligations.PopReadsThenIncrements : Prop :=
  ∀ s : State,
    s.top = s.memRead (s.reg 7) ∧ s.drop.reg 7 = s.reg 7 + 1 ∧ SameRegsBut [7] s s.drop ∧ SameMemory s s.drop ∧
      s.drop.pc = s.pc ∧ s.drop.fl = s.fl ∧ SameOutside s s.drop

/-! ### ALU -/

/-- The arithmetic laws: unsigned operands and results, exact results reduced modulo 256, floor quotient and remainder
with a fault on a zero divisor, unsigned comparison, logical shifts by the whole amount; AND, OR and XOR give a byte and
never raise; one register or `fl` written and nothing recorded elsewhere. (The reading of a fault as a run status that
keeps the rest of the state is log entry 4.) -/
def Obligations.ArithmeticIsUnsignedModulo256 : Prop :=
  ∀ (a b : RegId) (s : State) (x y : Nat), (s.reg a).toNat = x → (s.reg b).toNat = y →
    exec (.add (regByte a) (regByte b)) s = .next (s.setReg a (BitVec.ofNat 8 ((x + y) % 256))) ∧
    exec (.sub (regByte a) (regByte b)) s = .next (s.setReg a (BitVec.ofNat 8 (((x : Int) - y) % 256).toNat)) ∧
    exec (.mul (regByte a) (regByte b)) s = .next (s.setReg a (BitVec.ofNat 8 (x * y % 256))) ∧
    exec (.inc (regByte a)) s = .next (s.setReg a (BitVec.ofNat 8 ((x + 1) % 256))) ∧
    exec (.dec (regByte a)) s = .next (s.setReg a (BitVec.ofNat 8 (((x : Int) - 1) % 256).toNat)) ∧
    exec (.shl (regByte a) (regByte b)) s = .next (s.setReg a (BitVec.ofNat 8 (x * 2 ^ y % 256))) ∧
    exec (.shr (regByte a) (regByte b)) s = .next (s.setReg a (BitVec.ofNat 8 (x / 2 ^ y))) ∧
    (y ≠ 0 → exec (.div (regByte a) (regByte b)) s = .next (s.setReg a (BitVec.ofNat 8 (x / y)))) ∧
    (y ≠ 0 → exec (.mod (regByte a) (regByte b)) s = .next (s.setReg a (BitVec.ofNat 8 (x - y * (x / y))))) ∧
    (∀ i ∈ [Instr.and (regByte a) (regByte b), .or (regByte a) (regByte b), .xor (regByte a) (regByte b)],
      ∃ v : Byte, exec i s = .next (s.setReg a v)) ∧
    (y = 0 → ∃ op p, exec (.div (regByte a) (regByte b)) s =
      .next { s with status := .faulted .divisionByZero op p }) ∧
    (y = 0 → ∃ op p, exec (.mod (regByte a) (regByte b)) s =
      .next { s with status := .faulted .divisionByZero op p }) ∧
    exec (.cmp (regByte a) (regByte b)) s = .next (s.setFl (if x < y then 4 else if x > y then 2 else 1))

/-- AND, OR, XOR and NOT work bit by bit on the 8 bits and write only their first register. -/
def Obligations.LogicIsBitwise : Prop :=
  ∀ (a b : RegId) (s : State), ∃ vAnd vOr vXor vNot : Byte,
    exec (.and (regByte a) (regByte b)) s = .next (s.setReg a vAnd) ∧
    exec (.or (regByte a) (regByte b)) s = .next (s.setReg a vOr) ∧
    exec (.xor (regByte a) (regByte b)) s = .next (s.setReg a vXor) ∧
    exec (.not (regByte a)) s = .next (s.setReg a vNot) ∧
    (∀ i : Fin 8, vAnd.getLsbD i = ((s.reg a).getLsbD i && (s.reg b).getLsbD i) ∧
      vOr.getLsbD i = ((s.reg a).getLsbD i || (s.reg b).getLsbD i) ∧
      vXor.getLsbD i = Bool.xor ((s.reg a).getLsbD i) ((s.reg b).getLsbD i) ∧
      vNot.getLsbD i = !(s.reg a).getLsbD i) ∧
    vNot.toNat = 255 - (s.reg a).toNat

/-- After DIV and MOD on the same inputs the quotient and the remainder make up the dividend, and the remainder is below
the divisor. -/
def Obligations.QuotientAndRemainderMakeUpTheDividend : Prop :=
  ∀ (a b : RegId) (s : State), s.reg b ≠ 0 → ∃ t u,
    exec (.div (regByte a) (regByte b)) s = .next t ∧ exec (.mod (regByte a) (regByte b)) s = .next u ∧
      (t.reg a).toNat * (s.reg b).toNat + (u.reg a).toNat = (s.reg a).toNat ∧
      (u.reg a).toNat < (s.reg b).toNat

/-- CMP leaves exactly one of the three flag values, by the unsigned order of the two registers, and writes no register
and no memory. -/
def Obligations.CompareSetsExactlyOneFlag : Prop :=
  ∀ (a b : RegId) (s : State), ∃ t, exec (.cmp (regByte a) (regByte b)) s = .next t ∧
    (t.fl = 1 ↔ s.reg a = s.reg b) ∧ (t.fl = 2 ↔ (s.reg a).toNat > (s.reg b).toNat) ∧
    (t.fl = 4 ↔ (s.reg a).toNat < (s.reg b).toNat) ∧ (t.fl = 1 ∨ t.fl = 2 ∨ t.fl = 4) ∧
    SameRegsBut [] s t ∧ SameMemory s t ∧ t.pc = s.pc ∧ SameOutside s t

/-- DIV and MOD by zero stop the core with the cause, the opcode byte and the advanced `pc`, and change nothing else, a
zero dividend and equal registers included. (What the status records is the spec's decision D8, log entry 17; that it is
a next state is log entry 4.) -/
def Obligations.DivisionByZeroStopsTheCore : Prop :=
  ∀ (a b : RegId) (s : State), s.reg b = 0 →
    exec (.div (regByte a) (regByte b)) s = .next { s with status := .faulted .divisionByZero (s.opcodeMap .div) s.pc } ∧
    exec (.mod (regByte a) (regByte b)) s = .next { s with status := .faulted .divisionByZero (s.opcodeMap .mod) s.pc }

/-! ### Data movement and stack -/

/-- LDI puts its immediate, any byte, in any register; LD puts there the byte its second register addresses, the address
being read before the register is written. Nothing else changes. (LD's roles are the spec's decision D9, log entry 7.) -/
def Obligations.LoadsWriteTheFirstRegister : Prop :=
  ∀ (a b : RegId) (imm : Byte) (s : State),
    exec (.ldi (regByte a) imm) s = .next (s.setReg a imm) ∧
    exec (.ld (regByte a) (regByte b)) s = .next (s.setReg a (s.memRead (s.reg b)))

/-- ST puts the second register's value in the cell the first register addresses, any address, and changes nothing
else. (The roles are the spec's decision D9, log entry 7.) -/
def Obligations.StoreWritesTheAddressedCell : Prop :=
  ∀ (a b : RegId) (s : State), ∃ t, exec (.st (regByte a) (regByte b)) s = .next t ∧
    t.memRead (s.reg a) = s.reg b ∧ SameMemoryBut [s.reg a] s t ∧ SameRegsBut [] s t ∧ t.pc = s.pc ∧ t.fl = s.fl ∧
    SameOutside s t

/-- PUSH: the value the register had before goes below the old stack pointer, and only the pointer and that cell change.
(That PUSH R7 pushes the old pointer is the spec's decision D10, log entry 8.) -/
def Obligations.PushInstructionStoresTheRegister : Prop :=
  ∀ (a : RegId) (s : State), ∃ t, exec (.push (regByte a)) s = .next t ∧
    t.reg 7 = s.reg 7 - 1 ∧ t.memRead (s.reg 7 - 1) = s.reg a ∧ SameRegsBut [7] s t ∧
    SameMemoryBut [s.reg 7 - 1] s t ∧ t.pc = s.pc ∧ t.fl = s.fl ∧ SameOutside s t

/-- POP: the register gets the byte at the old stack pointer; the pointer is one higher, unless the register is the
pointer itself, which keeps the popped byte. Memory is unchanged. (POP R7 is the spec's decision D10, log entry 8.) -/
def Obligations.PopInstructionLoadsTheTop : Prop :=
  ∀ (a : RegId) (s : State), ∃ t, exec (.pop (regByte a)) s = .next t ∧
    t.reg a = s.memRead (s.reg 7) ∧ (a ≠ 7 → t.reg 7 = s.reg 7 + 1) ∧ SameRegsBut [a, 7] s t ∧ SameMemory s t ∧
    t.pc = s.pc ∧ t.fl = s.fl ∧ SameOutside s t

/-- PUSH of any register followed by POP into any register but the stack pointer restores the value and the stack pointer,
at every stack pointer, the wrapping ones included. (That PUSH R7 pushes the old pointer is the spec's decision D10, log
entry 8; POP R7 keeps the popped byte, `PopInstructionLoadsTheTop`.) -/
def Obligations.PushThenPopRestoresValueAndPointer : Prop :=
  ∀ (a b : RegId) (s : State), b ≠ 7 → ∃ t u,
    exec (.push (regByte a)) s = .next t ∧ exec (.pop (regByte b)) t = .next u ∧
      u.reg b = s.reg a ∧ u.reg 7 = s.reg 7 ∧ SameRegsBut [b] s u ∧ SameMemoryBut [s.reg 7 - 1] s u

/-! ### Control flow -/

/-- JMP continues at the register's value, any value; the six conditional jumps test the whole value of `fl`, and one that
is not taken leaves `pc` at the next instruction. Nothing but `pc` ever changes. (The tests of JEQ, JNE, JGT and JLT are
the spec's decision D12, log entry 9.) -/
def Obligations.JumpsTestTheWholeFlagAndWriteOnlyThePc : Prop :=
  ∀ (a : RegId) (s : State),
    exec (.jmp (regByte a)) s = .next { s with pc := s.reg a } ∧
    exec (.jeq (regByte a)) s = .next { s with pc := if s.fl = 1 then s.reg a else s.pc } ∧
    exec (.jne (regByte a)) s = .next { s with pc := if s.fl ≠ 1 then s.reg a else s.pc } ∧
    exec (.jgt (regByte a)) s = .next { s with pc := if s.fl = 2 then s.reg a else s.pc } ∧
    exec (.jlt (regByte a)) s = .next { s with pc := if s.fl = 4 then s.reg a else s.pc } ∧
    exec (.jle (regByte a)) s = .next { s with pc := if s.fl ≠ 2 then s.reg a else s.pc } ∧
    exec (.jge (regByte a)) s = .next { s with pc := if s.fl ≠ 4 then s.reg a else s.pc }

/-- CALL pushes the address of the next instruction and continues at the register's value; CALL R7 continues at the
decremented stack pointer (the spec's decision D11, log entry 8). -/
def Obligations.CallPushesTheReturnAddress : Prop :=
  ∀ (a : RegId) (s : State), ∃ t, exec (.call (regByte a)) s = .next t ∧
    t.pc = (if a = 7 then s.reg 7 - 1 else s.reg a) ∧ t.reg 7 = s.reg 7 - 1 ∧ t.memRead (s.reg 7 - 1) = s.pc ∧
    SameRegsBut [7] s t ∧ SameMemoryBut [s.reg 7 - 1] s t ∧ t.fl = s.fl ∧ SameOutside s t

/-- RET continues at the byte on top of the stack, whatever put it there. -/
def Obligations.ReturnPopsTheAddress : Prop :=
  ∀ s : State, ∃ t, exec .ret s = .next t ∧ t.pc = s.memRead (s.reg 7) ∧ t.reg 7 = s.reg 7 + 1 ∧
    SameRegsBut [7] s t ∧ SameMemory s t ∧ t.fl = s.fl ∧ SameOutside s t

/-- A RET whose stack pointer and top byte are as a CALL left them returns to the instruction after that CALL and leaves
the stack pointer as it was before it, for any call target, any subroutine in between and any stack pointer. -/
def Obligations.ReturnUndoesCall : Prop :=
  ∀ (a : RegId) (s t u : State), exec (.call (regByte a)) s = .next t → u.reg 7 = t.reg 7 →
    u.memRead (u.reg 7) = t.memRead (t.reg 7) → ∃ v, exec .ret u = .next v ∧ v.pc = s.pc ∧ v.reg 7 = s.reg 7

/-! ### System and output -/

/-- HLT completes: the run status becomes `Halted`, everything else keeps its value, and the core stays so for any number of
steps, whatever is pending. (That HLT is final is the spec's decision D22, log entry 18; that the step of a stopped core
answers the state itself is log entry 5.) -/
def Obligations.HaltStopsForGoodAndKeepsTheState : Prop :=
  ∀ s : State, ∃ t, exec .hlt s = .next t ∧ t = { s with status := .halted } ∧
    ∀ n : Nat, Sys2Proof.core.run n t = .next t

/-- PRN and PRA append one event with the register's value and change nothing else. -/
def Obligations.PrintAppendsOneEvent : Prop :=
  ∀ (a : RegId) (s : State),
    exec (.prn (regByte a)) s = .next { s with out := s.out ++ [.prn (s.reg a)] } ∧
    exec (.pra (regByte a)) s = .next { s with out := s.out ++ [.pra (s.reg a)] }

/-- The text of PRN's event is one to three decimal digits with no leading zero whose value is the byte, then a line feed;
PRA's is the one character. (The details are the spec's decision D18, log entry 15.) -/
def Obligations.EventTextIsDecimalOrCharacter : Prop :=
  ∀ v : Byte, Event.text (.pra v) = [v.toNat] ∧
    ∃ ds : List Nat, Event.text (.prn v) = ds.map (fun d => 48 + d) ++ [10] ∧ (∀ d ∈ ds, d < 10) ∧
      ds.foldl (fun n d => 10 * n + d) 0 = v.toNat ∧ 1 ≤ ds.length ∧ ds.length ≤ 3 ∧ (ds.head? = some 0 → ds = [0])

/-- IRET loads registers 0 to 6 in ascending order from the stack top, then `fl`, then `pc`; the stack pointer ends nine
higher; memory, output and status are unchanged, on any stack pointer. (The order is the resolution of conflict C2, log
entry 12; that the whole byte goes to `fl` is the spec's decision D13, log entry 10.) -/
def Obligations.InterruptReturnPopsTheFrame : Prop :=
  ∀ s : State, ∃ t, exec .iret s = .next t ∧
    (∀ r : RegId, r ≠ 7 → t.reg r = s.memRead (s.reg 7 + BitVec.ofNat 8 r.val)) ∧
    t.fl = s.memRead (s.reg 7 + 7) ∧ t.pc = s.memRead (s.reg 7 + 8) ∧ t.reg 7 = s.reg 7 + 9 ∧ SameMemory s t ∧
    SameOutside s t

/-! ### Interrupts -/

/-- Phase 1 with a pending line takes the lowest one: it clears that line's status bit only, pushes `pc`, `fl` and
registers 6 down to 0 (the status register already cleared), lowers the stack pointer by nine and continues at the byte
in the line's vector; registers 0 to 5, the other status bits, the flags, the mask and every other cell are unchanged,
and the other pending lines stay pending. -/
def Obligations.LowestPendingLineIsDispatched : Prop :=
  ∀ (s : State) (i : Line), s.pending.getLsbD i = true → (∀ j : Line, j < i → s.pending.getLsbD j = false) →
    ∃ t, t = s.interruptCheck ∧
      (∀ j : Nat, (t.reg 6).getLsbD j = ((s.reg 6).getLsbD j && decide (j ≠ i.val))) ∧
      SameRegsBut [6, 7] s t ∧ t.reg 7 = s.reg 7 - 9 ∧ t.fl = s.fl ∧ SameOutside s t ∧
      t.memRead (s.reg 7 - 1) = s.pc ∧ t.memRead (s.reg 7 - 2) = s.fl ∧ t.memRead (s.reg 7 - 3) = t.reg 6 ∧
      t.memRead (s.reg 7 - 4) = s.reg 5 ∧ t.memRead (s.reg 7 - 5) = s.reg 4 ∧ t.memRead (s.reg 7 - 6) = s.reg 3 ∧
      t.memRead (s.reg 7 - 7) = s.reg 2 ∧ t.memRead (s.reg 7 - 8) = s.reg 1 ∧ t.memRead (s.reg 7 - 9) = s.reg 0 ∧
      SameMemoryBut [s.reg 7 - 1, s.reg 7 - 2, s.reg 7 - 3, s.reg 7 - 4, s.reg 7 - 5, s.reg 7 - 6, s.reg 7 - 7,
        s.reg 7 - 8, s.reg 7 - 9] s t ∧
      t.pc = t.memRead (0xF8 + BitVec.ofNat 8 i.val) ∧
      ∀ j : Line, j ≠ i → t.pending.getLsbD j = s.pending.getLsbD j

/-- With no line both enabled and requested phase 1 does nothing; a request that is not enabled is kept. -/
def Obligations.NothingPendingNothingDispatched : Prop :=
  ∀ s : State, (∀ i : Line, ¬ ((s.reg 5).getLsbD i = true ∧ (s.reg 6).getLsbD i = true)) → s.interruptCheck = s

/-- The tick of a cycle sets bit 0 of the interrupt status and no other bit or register, after phase 1 and before the
fetch: it does not decide whether, or where, this cycle's interrupt is taken. It is the tick the state holds for the coming
cycle: the known bit, the free bit of that cycle number, or none; and the step's fetch state is the one it leads to, with
only that tick taken before phase 1. (That `tick` is a free input is the spec's decision D14; a state holds it as its own
field, in these three forms, log entry 3.) -/
def Obligations.TickSetsTheTimerBitAfterTheInterruptCheck : Prop :=
  ∀ s : State,
    s.atFetch false = s.interruptCheck ∧
    (∀ j : Nat, ((s.atFetch true).reg 6).getLsbD j = (decide (j = 0) || ((s.atFetch false).reg 6).getLsbD j)) ∧
    SameRegsBut [6] (s.atFetch false) (s.atFetch true) ∧ (s.atFetch true).pc = (s.atFetch false).pc ∧
    (s.atFetch true).fl = (s.atFetch false).fl ∧ SameMemory (s.atFetch false) (s.atFetch true) ∧
    SameOutside (s.atFetch false) (s.atFetch true) ∧
    (∀ b later, s.ticks = .bit b later →
      s.fetchState = s.takeTick.atFetch b ∧ s.takeTick = { s with ticks := later }) ∧
    (∀ n, s.ticks = .free n →
      s.fetchState = s.takeTick.atFetch (Config.freeTick n) ∧ s.takeTick = { s with ticks := .free (n + 1) }) ∧
    (s.ticks = .silent → s.fetchState = s.takeTick.atFetch false ∧ s.takeTick = s)

/-- IRET after a dispatch restores the interrupted program: if at the IRET the stack pointer and the nine bytes of the
frame are as the dispatch left them, then whatever the handler did to registers, flags and the rest of memory,
registers 0 to 5 and 7, the flags and the program counter are again what they were, and the interrupt status is what it
was but for the dispatched line's bit, which is clear. -/
def Obligations.InterruptReturnRestoresTheInterruptedProgram : Prop :=
  ∀ (s u : State) (i : Line), u.reg 7 = (s.dispatch i).reg 7 →
    (∀ k : Nat, k < 9 → u.memRead (s.reg 7 - 9 + BitVec.ofNat 8 k) =
      (s.dispatch i).memRead (s.reg 7 - 9 + BitVec.ofNat 8 k)) →
    ∃ t, exec .iret u = .next t ∧ SameRegsBut [6] s t ∧ t.fl = s.fl ∧ t.pc = s.pc ∧
      (∀ j : Nat, (t.reg 6).getLsbD j = ((s.reg 6).getLsbD j && decide (j ≠ i.val))) ∧ SameMemory u t

/-! ### Faults -/

/-- Any instruction with a register operand above 7 stops the core before it has any effect, recording its opcode byte and
the first such operand, whatever the condition of a jump or the divisor. (The fault is the spec's decision D6, log entry
6; its priority D19; what it records D8, log entry 17.) -/
def Obligations.BadRegisterOperandStopsBeforeAnyEffect : Prop :=
  ∀ (i : Instr) (k : Byte) (s : State), i.badOperand? = some k →
    exec i s = .next { s with status := .faulted (.registerIndexOutOfRange k) (s.opcodeMap i.mnemonic) s.pc }

/-- A step that ends in a fault has changed nothing since phases 1 and 2 but `pc`, which the operand fetch has moved past
the whole instruction, and the run status. -/
def Obligations.FaultLeavesOnlyPhasesOneAndTwoAndThePc : Prop :=
  ∀ (s t : State) (c : FaultCause) (op p : Byte), s.isRunning → step s = .next t → t.status = .faulted c op p →
    t = { s.fetchState with pc := t.pc, status := t.status } ∧ t.pc = s.fetchState.afterFetch.pc

/-- Nothing moves a stopped core, neither a pending interrupt nor a tick, for any number of steps. (A stopped core's step
answers the state itself by the model's choice, log entry 5; that HLT is final is the spec's decision D22.) -/
def Obligations.StoppedCoreStaysAsItIs : Prop :=
  ∀ (n : Nat) (s : State), s.status ≠ .running → Sys2Proof.core.run n s = .next s

/-- Every cycle of a running core ends in exactly one of three ways: it still runs, it was HLT and is halted, or it is
faulted; the first three phases never stop it. -/
def Obligations.EveryCycleEndsInOneOfThreeWays : Prop :=
  ∀ s : State, s.isRunning → s.fetchState.afterFetch.status = .running ∧ ∃ t, step s = .next t ∧
    (t.status = .running ∨
      (t.status = .halted ∧ s.fetchState.memRead s.fetchState.pc = s.opcodeMap .hlt) ∨
      ∃ c op p, t.status = .faulted c op p)

/-! ### The step -/

/-- The fetch takes the opcode byte at `pc` and as many operand bytes as its bits 7:6 say, from the addresses that follow,
wrapping at 256, and leaves `pc` at the address after the last of them and nothing else changed. (That the count is three
for 0xC0 to 0xFF is the spec's decision D7, log entry 16.) -/
def Obligations.FetchTakesTheOpcodeAndItsOperandBytes : Prop :=
  ∀ (s : State) (n : Nat), n = (s.memRead s.pc).toNat / 64 →
    s.fetchedByte = s.memRead s.pc ∧ s.advance = { s with pc := s.pc + 1 } ∧
    s.instructionBytes = s.bytesAtPc.take (1 + n) ∧ s.afterFetch = { s with pc := s.pc + 1 + BitVec.ofNat 8 n }

/-- When the bytes at the program counter, once the tick is taken and phases 1 and 2 are done, decode to an instruction
under the core's opcode map, the step is that instruction's meaning with the program counter past the instruction. -/
def Obligations.StepRunsTheDecodedInstruction : Prop :=
  ∀ (s : State) (i : Instr) (rest : List Byte), s.isRunning → decodeWith s.opcodeMap s.fetchState.bytesAtPc = .instr i rest →
    step s = exec i { s.fetchState with pc := s.fetchState.pc + BitVec.ofNat 8 (encodeWith s.opcodeMap i).length }

/-- When the bytes at the program counter, once the tick is taken and phases 1 and 2 are done, decode to an unknown opcode
byte or to a register operand out of range, the step raises that fault, with the program counter past the operand bytes
the opcode byte claims and nothing else changed. (That an operand byte above 7 is a fault is the spec's decision D6, log
entry 6; the fault record is D8, log entry 17; three operand bytes for 0xC0 to 0xFF is D7, log entry 16; that the fault is
a next state is log entry 4.) -/
def Obligations.StepRaisesTheDecodersFault : Prop :=
  ∀ (s : State) (op k q : Byte), s.isRunning → op = s.fetchState.memRead s.fetchState.pc →
    q = s.fetchState.pc + 1 + BitVec.ofNat 8 (op.toNat / 64) →
    (decodeWith s.opcodeMap s.fetchState.bytesAtPc = .unknownInstruction op →
      step s = .next { s.fetchState with pc := q, status := .faulted .unknownInstruction op q }) ∧
    (decodeWith s.opcodeMap s.fetchState.bytesAtPc = .registerIndexOutOfRange op k →
      step s = .next { s.fetchState with pc := q, status := .faulted (.registerIndexOutOfRange k) op q })

/-- Every step keeps the invariant: a legal opcode map, memory in canonical form, and a recorded fault true to the machine
(its `pc` frozen with it, its opcode byte one that can raise its cause). (The record is the spec's decision D8, log entry 17.) -/
def Obligations.EveryStepKeepsTheInvariant : Prop := ∀ s t : State, s.Inv → step s = .next t → t.Inv

/-- The invariant holds after reset and every LOAD, whatever the timer will report and whatever legal opcode map the core
is built with; `State.reset` is one of these states, its opcode map being legal. (Its map is the default, log entry 1. That a
reset clears memory from any state is the spec's decision D24, log entry 18; that it keeps the coming
ticks and the opcode map is log entries 1 and 3.) -/
def Obligations.InvariantHoldsWhenBooted : Prop := Booted State.reset ∧ ∀ s : State, Booted s → s.Inv

/-- The opcode map is configuration: no step changes it. Every cycle takes the tick that was to come and none other, and a
stopped core takes none. (The two arguments are the model's own fields, log entries 1 and 3; that a stopped core takes no
tick is log entry 5.) -/
def Obligations.StepKeepsTheOpcodeMapAndTakesOneTick : Prop :=
  ∀ s t : State, step s = .next t → t.opcodes = s.opcodes ∧
    t.ticks = (if s.status = .running then s.ticks.tail else s.ticks)

/-- In a run whose instructions are not IRET `fl` holds 0, 1, 2 or 4: every step of such a state keeps that, an interrupt
dispatched in it included. -/
def Obligations.FlagStaysDefinedWithoutInterruptReturn : Prop :=
  ∀ s t : State, FlDefined s → s.fetchState.memRead s.fetchState.pc ≠ s.opcodeMap .iret → step s = .next t → FlDefined t

/-! ### Frames over the instruction set -/

/-- Only CMP and IRET write `fl`. -/
def Obligations.OnlyCompareAndInterruptReturnWriteTheFlags : Prop :=
  ∀ (i : Instr) (s t : State), exec i s = .next t → i.mnemonic ≠ .cmp → i.mnemonic ≠ .iret → t.fl = s.fl

/-- Only ST, PUSH and CALL write memory, one cell each: ST the cell its first register addresses, PUSH and CALL the cell
below the stack pointer; an instruction with any operand that names no register writes none. (That ST's first register is
the address is PRESUMED, the spec's decision D9, log entry 7; that an operand out of range writes nothing is D6, log
entry 6.) -/
def Obligations.OnlyStorePushAndCallWriteMemory : Prop :=
  ∀ (i : Instr) (s t : State), exec i s = .next t → (i.wf = false → SameMemory s t) ∧
    match i with
    | .st a _ => ∀ ra, a = regByte ra → SameMemoryBut [s.reg ra] s t
    | .push _ => SameMemoryBut [s.reg 7 - 1] s t
    | .call _ => SameMemoryBut [s.reg 7 - 1] s t
    | _ => SameMemory s t

/-- Only the control transfers write `pc`, only PRN and PRA the output, and nothing an instruction does changes the coming
ticks or the opcode map. (The ticks and the opcode map are the model's own fields, log entries 3 and 1.) -/
def Obligations.OnlyControlFlowWritesThePcAndOnlyPrintsTheOutput : Prop :=
  ∀ (i : Instr) (s t : State), exec i s = .next t →
    (i.mnemonic ∉ [.jmp, .jeq, .jne, .jgt, .jlt, .jle, .jge, .call, .ret, .iret] → t.pc = s.pc) ∧
    (i.mnemonic ∉ [.prn, .pra] → t.out = s.out) ∧ s.out <+: t.out ∧ SameArguments s t

/-- The register-only instructions (ALU but CMP, LDI, LD) leave every register but the one their first operand names, the
flags, the program counter, memory and output unchanged; the run status too, unless a fault was raised. (That LD's
destination is its first operand is PRESUMED, the spec's decision D9, log entry 7; that an operand above 7 writes no
register is D6, log entry 6.) -/
def Obligations.RegisterInstructionsWriteOneRegister : Prop :=
  ∀ (a b : Byte) (s t : State),
    ∀ i ∈ [Instr.add a b, .sub a b, .mul a b, .div a b, .mod a b, .and a b, .or a b, .xor a b, .shl a b, .shr a b,
      .inc a, .dec a, .not a, .ldi a b, .ld a b],
    exec i s = .next t →
      (∀ r : RegId, regByte r ≠ a → t.reg r = s.reg r) ∧ t.fl = s.fl ∧ t.pc = s.pc ∧ SameMemory s t ∧ t.out = s.out ∧
        SameArguments s t ∧ StatusSameOrFault s t

/-- CMP, ST, the jumps, HLT, PRN and PRA write no register; PUSH, CALL and RET none but the stack pointer; POP none but
its operand and the stack pointer; and, but for HLT, the run status is unchanged unless a fault was raised. (That a POP whose operand is above 7, like any
other of these with such an operand, writes no register is the spec's decision D6, log entry 6; that the fault it raises
is a run status is D8, log entry 17.) -/
def Obligations.OtherInstructionsWriteNoOtherRegister : Prop :=
  ∀ (a b : Byte) (s t : State),
    (∀ i ∈ [Instr.cmp a b, .st a b, .jmp a, .jeq a, .jne a, .jgt a, .jlt a, .jle a, .jge a, .hlt, .prn a, .pra a],
      exec i s = .next t → SameRegsBut [] s t) ∧
    (∀ i ∈ [Instr.push a, .call a, .ret], exec i s = .next t → SameRegsBut [7] s t) ∧
    (exec (.pop a) s = .next t → ∀ r : RegId, r ≠ 7 → regByte r ≠ a → t.reg r = s.reg r) ∧
    (∀ i : Instr, i ≠ .hlt → exec i s = .next t → StatusSameOrFault s t)

/-! ### Loading -/

/-- LOAD puts an image of up to 256 bytes at addresses 0 on and touches no other cell and no register; a longer one is no
LOAD. (The bound is the spec's decision D17, log entry 14.) -/
def Obligations.LoadPlacesTheImageAtZero : Prop :=
  ∀ (s : State) (image : List Byte),
    (256 < image.length → s.load image = none) ∧
    (image.length ≤ 256 → ∃ t, s.load image = some t ∧
      (∀ addr : Byte, t.memRead addr = image.getD addr.toNat (s.memRead addr)) ∧
      SameRegsBut [] s t ∧ t.pc = s.pc ∧ t.fl = s.fl ∧ SameOutside s t)

/-- Every run begins at address 0 with the stack pointer at 0xF4, every other register zero, `fl` zero, nothing emitted and
no line pending, so its first cycle dispatches nothing and fetches at 0. (The zero of registers 0 to 6, and with it that no
line is enabled, requested or pending, is the spec's decision D3, log entry 2; that a run may begin with a reset from any state, and that the reset is total, on the spec's
decision D24, log entry 18.) -/
def Obligations.FirstCycleFetchesAtAddressZero : Prop :=
  ∀ s : State, Booted s → s.isRunning ∧ s.reg 7 = 0xF4 ∧ (∀ r : RegId, r ≠ 7 → s.reg r = 0) ∧ s.fl = 0 ∧ s.out = [] ∧
    s.pending = 0 ∧ s.pc = 0 ∧ s.fetchState.pc = 0 ∧ SameMemory s s.fetchState
end

