-- ==== Sys2Proof/Laws/Decode.lean ====
section
/-! SUPPORT. The table lookup of a legal opcode map, and what the decoder's answer says about the bytes
(spec/30_encoding.md R50 to R60). -/

namespace Sys2Proof

theorem Mnemonic.mem_all (k : Mnemonic) : k ∈ Mnemonic.all := by
  cases k <;> decide

theorem OpcodeMap.lookup_some {m : OpcodeMap} {op : Byte} {k : Mnemonic} (h : m.lookup op = some k) : m k = op := by
  simpa using List.find?_some h

theorem OpcodeMap.lookup_none {m : OpcodeMap} {op : Byte} : m.lookup op = none ↔ ∀ k, m k ≠ op := by
  simp [OpcodeMap.lookup, List.find?_eq_none, Mnemonic.mem_all]

/-- A legal map finds an instruction by its own opcode byte. -/
theorem OpcodeMap.Legal.lookup_self {m : OpcodeMap} (hm : m.Legal) (k : Mnemonic) : m.lookup (m k) = some k := by
  cases h : m.lookup (m k) with
  | none => exact absurd rfl (OpcodeMap.lookup_none.mp h k)
  | some j => rw [hm.injective j k (OpcodeMap.lookup_some h)]

/-- What the operand bytes built is the instruction they encode. -/
theorem Mnemonic.instr?_some {k : Mnemonic} {ops : List Byte} {i : Instr} (h : k.instr? ops = some i) :
    i.mnemonic = k ∧ i.operands = ops := by
  unfold Mnemonic.instr? at h
  split at h <;> first
    | (cases h; exact ⟨rfl, rfl⟩)
    | exact absurd h (by simp)

theorem Instr.operands_length (i : Instr) : i.operands.length = i.mnemonic.format.operandBytes := by
  cases i <;> rfl

/-- Operand bytes in the number the format fixes build an instruction. -/
theorem Mnemonic.instr?_of_length {k : Mnemonic} {ops : List Byte} (h : ops.length = k.format.operandBytes) :
    ∃ i, k.instr? ops = some i := by
  rcases ops with _ | ⟨x, _ | ⟨y, _ | ⟨z, tl⟩⟩⟩ <;> cases k <;>
    first
    | exact ⟨_, rfl⟩
    | exact absurd h (by simp [Mnemonic.format, Format.operandBytes])

/-- Everything the decoder can answer when it is offered the bytes the opcode byte claims: the instruction, the unknown
opcode byte (under a legal map one of no instruction), or the first register operand out of range (R60). -/
theorem decodeWith_cases (m : OpcodeMap) {op : Byte} {tail : List Byte} (h : operandCount op ≤ tail.length) :
    (∃ i : Instr, decodeWith m (op :: tail) = .instr i (tail.drop (operandCount op)) ∧ m i.mnemonic = op ∧
        i.operands = tail.take (operandCount op) ∧ i.badOperand? = none) ∨
      (decodeWith m (op :: tail) = .unknownInstruction op ∧ (m.Legal → ∀ k, m k ≠ op)) ∨
      (∃ (i : Instr) (o : Byte), decodeWith m (op :: tail) = .registerIndexOutOfRange op o ∧ m i.mnemonic = op ∧
        i.operands = tail.take (operandCount op) ∧ i.badOperand? = some o) := by
  cases hl : m.lookup op with
  | none => exact .inr (.inl ⟨by simp [decodeWith, Nat.not_lt.mpr h, hl], fun _ => OpcodeMap.lookup_none.mp hl⟩)
  | some k =>
    have hk := OpcodeMap.lookup_some hl
    cases hi : k.instr? (tail.take (operandCount op)) with
    | none =>
      refine .inr (.inl ⟨by simp [decodeWith, Nat.not_lt.mpr h, hl, hi], fun hm => ?_⟩)
      have hlen : (tail.take (operandCount op)).length = k.format.operandBytes := by
        rw [List.length_take, Nat.min_eq_left h, ← hk, hm.count]
      obtain ⟨i, hs⟩ := Mnemonic.instr?_of_length hlen
      exact absurd (hi.symm.trans hs) (by simp)
    | some i =>
      obtain ⟨hmn, hop⟩ := Mnemonic.instr?_some hi
      cases hb : i.badOperand? with
      | none => exact .inl ⟨i, by simp [decodeWith, Nat.not_lt.mpr h, hl, hi, hb], by rw [hmn, hk], hop, hb⟩
      | some o => exact .inr (.inr ⟨i, o, by simp [decodeWith, Nat.not_lt.mpr h, hl, hi, hb], by rw [hmn, hk], hop, hb⟩)

/-- A map's table holds that map. -/
@[simp] theorem OpcodeMap.table_map (m : OpcodeMap) : m.table.map = m := by
  funext k; cases k <;> rfl

/-- The default map's bits 7:6 are the operand counts (R57 constraint (c)). -/
theorem defaultOpcodeMap_count (k : Mnemonic) : operandCount (defaultOpcodeMap k) = k.format.operandBytes := by
  cases k <;> decide

/-- The default map meets every constraint of R57. -/
theorem defaultOpcodeMap_legal : defaultOpcodeMap.Legal where
  injective j k := by cases j <;> cases k <;> decide
  ldi := rfl
  add := rfl
  prn := rfl
  hlt := rfl
  count := defaultOpcodeMap_count

/-- A reported operand byte is a register operand greater than 7. -/
theorem Instr.badOperand?_some {i : Instr} {k : Byte} (h : i.badOperand? = some k) :
    7 < k.toNat ∧ i.mnemonic.format ≠ .f0 := by
  refine ⟨by simpa using List.find?_some h, fun hf => ?_⟩
  cases i <;> simp [Instr.mnemonic, Mnemonic.format] at hf <;>
    simp [Instr.badOperand?, Instr.registerOperands] at h

end Sys2Proof
end

