-- ==== Sys2Proof/Laws/State.lean ====
section
/-! SUPPORT. One lemma per field per update of the state, so that no later proof unfolds a record update. -/

namespace Sys2Proof.Machine

open Sys2Proof

@[simp] theorem State.setReg_pc (s : State) (r : RegId) (v : Byte) : (s.setReg r v).pc = s.pc := rfl
@[simp] theorem State.setReg_fl (s : State) (r : RegId) (v : Byte) : (s.setReg r v).fl = s.fl := rfl
@[simp] theorem State.setReg_mem (s : State) (r : RegId) (v : Byte) : (s.setReg r v).mem = s.mem := rfl
@[simp] theorem State.setReg_status (s : State) (r : RegId) (v : Byte) : (s.setReg r v).status = s.status := rfl
@[simp] theorem State.setReg_out (s : State) (r : RegId) (v : Byte) : (s.setReg r v).out = s.out := rfl
@[simp] theorem State.setReg_ticks (s : State) (r : RegId) (v : Byte) : (s.setReg r v).ticks = s.ticks := rfl
@[simp] theorem State.setReg_opcodes (s : State) (r : RegId) (v : Byte) : (s.setReg r v).opcodes = s.opcodes := rfl
@[simp] theorem State.setReg_memRead (s : State) (r : RegId) (v : Byte) (x : Byte) : (s.setReg r v).memRead x = s.memRead x := rfl

@[simp] theorem State.setPc_regs (s : State) (v : Byte) : (s.setPc v).regs = s.regs := rfl
@[simp] theorem State.setPc_pc (s : State) (v : Byte) : (s.setPc v).pc = v := rfl
@[simp] theorem State.setPc_fl (s : State) (v : Byte) : (s.setPc v).fl = s.fl := rfl
@[simp] theorem State.setPc_mem (s : State) (v : Byte) : (s.setPc v).mem = s.mem := rfl
@[simp] theorem State.setPc_status (s : State) (v : Byte) : (s.setPc v).status = s.status := rfl
@[simp] theorem State.setPc_out (s : State) (v : Byte) : (s.setPc v).out = s.out := rfl
@[simp] theorem State.setPc_ticks (s : State) (v : Byte) : (s.setPc v).ticks = s.ticks := rfl
@[simp] theorem State.setPc_opcodes (s : State) (v : Byte) : (s.setPc v).opcodes = s.opcodes := rfl
@[simp] theorem State.setPc_reg (s : State) (v : Byte) (q : RegId) : (s.setPc v).reg q = s.reg q := rfl
@[simp] theorem State.setPc_memRead (s : State) (v : Byte) (x : Byte) : (s.setPc v).memRead x = s.memRead x := rfl

@[simp] theorem State.setFl_regs (s : State) (v : Byte) : (s.setFl v).regs = s.regs := rfl
@[simp] theorem State.setFl_pc (s : State) (v : Byte) : (s.setFl v).pc = s.pc := rfl
@[simp] theorem State.setFl_fl (s : State) (v : Byte) : (s.setFl v).fl = v := rfl
@[simp] theorem State.setFl_mem (s : State) (v : Byte) : (s.setFl v).mem = s.mem := rfl
@[simp] theorem State.setFl_status (s : State) (v : Byte) : (s.setFl v).status = s.status := rfl
@[simp] theorem State.setFl_out (s : State) (v : Byte) : (s.setFl v).out = s.out := rfl
@[simp] theorem State.setFl_ticks (s : State) (v : Byte) : (s.setFl v).ticks = s.ticks := rfl
@[simp] theorem State.setFl_opcodes (s : State) (v : Byte) : (s.setFl v).opcodes = s.opcodes := rfl
@[simp] theorem State.setFl_reg (s : State) (v : Byte) (q : RegId) : (s.setFl v).reg q = s.reg q := rfl
@[simp] theorem State.setFl_memRead (s : State) (v : Byte) (x : Byte) : (s.setFl v).memRead x = s.memRead x := rfl

@[simp] theorem State.memWrite_regs (s : State) (addr v : Byte) : (s.memWrite addr v).regs = s.regs := rfl
@[simp] theorem State.memWrite_pc (s : State) (addr v : Byte) : (s.memWrite addr v).pc = s.pc := rfl
@[simp] theorem State.memWrite_fl (s : State) (addr v : Byte) : (s.memWrite addr v).fl = s.fl := rfl
@[simp] theorem State.memWrite_mem (s : State) (addr v : Byte) : (s.memWrite addr v).mem = Memory.write s.mem addr.toNat v := rfl
@[simp] theorem State.memWrite_status (s : State) (addr v : Byte) : (s.memWrite addr v).status = s.status := rfl
@[simp] theorem State.memWrite_out (s : State) (addr v : Byte) : (s.memWrite addr v).out = s.out := rfl
@[simp] theorem State.memWrite_ticks (s : State) (addr v : Byte) : (s.memWrite addr v).ticks = s.ticks := rfl
@[simp] theorem State.memWrite_opcodes (s : State) (addr v : Byte) : (s.memWrite addr v).opcodes = s.opcodes := rfl
@[simp] theorem State.memWrite_reg (s : State) (addr v : Byte) (q : RegId) : (s.memWrite addr v).reg q = s.reg q := rfl

@[simp] theorem State.emit_regs (s : State) (e : Event) : (s.emit e).regs = s.regs := rfl
@[simp] theorem State.emit_pc (s : State) (e : Event) : (s.emit e).pc = s.pc := rfl
@[simp] theorem State.emit_fl (s : State) (e : Event) : (s.emit e).fl = s.fl := rfl
@[simp] theorem State.emit_mem (s : State) (e : Event) : (s.emit e).mem = s.mem := rfl
@[simp] theorem State.emit_status (s : State) (e : Event) : (s.emit e).status = s.status := rfl
@[simp] theorem State.emit_out (s : State) (e : Event) : (s.emit e).out = s.out ++ [e] := rfl
@[simp] theorem State.emit_ticks (s : State) (e : Event) : (s.emit e).ticks = s.ticks := rfl
@[simp] theorem State.emit_opcodes (s : State) (e : Event) : (s.emit e).opcodes = s.opcodes := rfl
@[simp] theorem State.emit_reg (s : State) (e : Event) (q : RegId) : (s.emit e).reg q = s.reg q := rfl
@[simp] theorem State.emit_memRead (s : State) (e : Event) (x : Byte) : (s.emit e).memRead x = s.memRead x := rfl

@[simp] theorem State.halt_regs (s : State) : (s.halt).regs = s.regs := rfl
@[simp] theorem State.halt_pc (s : State) : (s.halt).pc = s.pc := rfl
@[simp] theorem State.halt_fl (s : State) : (s.halt).fl = s.fl := rfl
@[simp] theorem State.halt_mem (s : State) : (s.halt).mem = s.mem := rfl
@[simp] theorem State.halt_status (s : State) : (s.halt).status = .halted := rfl
@[simp] theorem State.halt_out (s : State) : (s.halt).out = s.out := rfl
@[simp] theorem State.halt_ticks (s : State) : (s.halt).ticks = s.ticks := rfl
@[simp] theorem State.halt_opcodes (s : State) : (s.halt).opcodes = s.opcodes := rfl
@[simp] theorem State.halt_reg (s : State) (q : RegId) : (s.halt).reg q = s.reg q := rfl
@[simp] theorem State.halt_memRead (s : State) (x : Byte) : (s.halt).memRead x = s.memRead x := rfl

@[simp] theorem State.raise_regs (s : State) (c : FaultCause) (op : Byte) : (s.raise c op).regs = s.regs := rfl
@[simp] theorem State.raise_pc (s : State) (c : FaultCause) (op : Byte) : (s.raise c op).pc = s.pc := rfl
@[simp] theorem State.raise_fl (s : State) (c : FaultCause) (op : Byte) : (s.raise c op).fl = s.fl := rfl
@[simp] theorem State.raise_mem (s : State) (c : FaultCause) (op : Byte) : (s.raise c op).mem = s.mem := rfl
@[simp] theorem State.raise_status (s : State) (c : FaultCause) (op : Byte) : (s.raise c op).status = .faulted c op s.pc := rfl
@[simp] theorem State.raise_out (s : State) (c : FaultCause) (op : Byte) : (s.raise c op).out = s.out := rfl
@[simp] theorem State.raise_ticks (s : State) (c : FaultCause) (op : Byte) : (s.raise c op).ticks = s.ticks := rfl
@[simp] theorem State.raise_opcodes (s : State) (c : FaultCause) (op : Byte) : (s.raise c op).opcodes = s.opcodes := rfl
@[simp] theorem State.raise_reg (s : State) (c : FaultCause) (op : Byte) (q : RegId) : (s.raise c op).reg q = s.reg q := rfl
@[simp] theorem State.raise_memRead (s : State) (c : FaultCause) (op : Byte) (x : Byte) : (s.raise c op).memRead x = s.memRead x := rfl

@[simp] theorem State.takeTick_regs (s : State) : (s.takeTick).regs = s.regs := rfl
@[simp] theorem State.takeTick_pc (s : State) : (s.takeTick).pc = s.pc := rfl
@[simp] theorem State.takeTick_fl (s : State) : (s.takeTick).fl = s.fl := rfl
@[simp] theorem State.takeTick_mem (s : State) : (s.takeTick).mem = s.mem := rfl
@[simp] theorem State.takeTick_status (s : State) : (s.takeTick).status = s.status := rfl
@[simp] theorem State.takeTick_out (s : State) : (s.takeTick).out = s.out := rfl
@[simp] theorem State.takeTick_ticks (s : State) : (s.takeTick).ticks = s.ticks.tail := rfl
@[simp] theorem State.takeTick_opcodes (s : State) : (s.takeTick).opcodes = s.opcodes := rfl
@[simp] theorem State.takeTick_reg (s : State) (q : RegId) : (s.takeTick).reg q = s.reg q := rfl
@[simp] theorem State.takeTick_memRead (s : State) (x : Byte) : (s.takeTick).memRead x = s.memRead x := rfl

/-- Reading a register after a write: no register is hard-wired and none aliases another (R10, R11). -/
@[simp] theorem State.setReg_reg (s : State) (r : RegId) (v : Byte) (q : RegId) :
    (s.setReg r v).reg q = if q = r then v else s.reg q := by
  simp [State.reg, State.setReg, Vector.getElem_set, Fin.ext_iff, eq_comm]

end Sys2Proof.Machine
end

