-- ==== Sys2Proof/Laws/Memory.lean ====
section
/-! SUPPORT. The laws of memory: a read after a write (R32), and the canonical form every operation keeps. -/

namespace Sys2Proof.Machine

open Sys2Proof

@[simp] theorem Memory.read_nil (a : Nat) : Memory.read [] a = Config.memReset := rfl

@[simp] theorem Memory.read_cons (k : Nat) (v : Byte) (m : Memory) (a : Nat) :
    Memory.read ((k, v) :: m) a = if k = a then v else Memory.read m a := rfl

theorem Memory.read_erase (m : Memory) (a b : Nat) :
    Memory.read (Memory.erase m a) b = if b = a then Config.memReset else Memory.read m b := by
  induction m with
  | nil => simp [Memory.erase]
  | cons c m ih =>
    obtain ⟨k, v⟩ := c
    by_cases hk : k = a
    · subst hk
      simp only [Memory.erase, if_true, ih, Memory.read_cons]
      split <;> simp_all [eq_comm]
    · simp only [Memory.erase, hk, if_false, Memory.read_cons, ih]
      by_cases hb : k = b
      · subst hb; simp [hk]
      · simp [hb]

/-- Inserting an address the list does not hold changes that address's reading only. -/
theorem Memory.read_insert (m : Memory) (a : Nat) (v : Byte) (b : Nat) (h : b = a → ∀ w, (a, w) ∉ m) :
    Memory.read (Memory.insert m a v) b = if b = a then v else Memory.read m b := by
  induction m with
  | nil => simp [Memory.insert, eq_comm]
  | cons c m ih =>
    obtain ⟨k, w⟩ := c
    by_cases hlt : a < k
    · simp only [Memory.insert, hlt, if_true, Memory.read_cons]
      by_cases hb : a = b
      · simp [hb]
      · simp [hb, eq_comm]
    · have ih' := ih (fun hb w' hm => h hb w' (List.mem_cons_of_mem _ hm))
      simp only [Memory.insert, hlt, if_false, Memory.read_cons, ih']
      by_cases hb : b = a
      · have hk : k ≠ b := fun e => h hb w (by simp [← e.trans hb])
        simp [hb, hb ▸ hk]
      · simp [hb]

theorem Memory.not_mem_erase (m : Memory) (a : Nat) (w : Byte) : (a, w) ∉ Memory.erase m a := by
  induction m with
  | nil => simp [Memory.erase]
  | cons c m ih =>
    obtain ⟨k, v⟩ := c
    by_cases hk : k = a
    · simpa [Memory.erase, hk] using ih
    · simp only [Memory.erase, hk, if_false, List.mem_cons, Prod.mk.injEq, not_or]
      exact ⟨fun h => hk h.1.symm, ih⟩

/-- A read after a write, in any memory list (R32). -/
theorem Memory.read_write (m : Memory) (a : Nat) (v : Byte) (b : Nat) :
    Memory.read (Memory.write m a v) b = if b = a then v else Memory.read m b := by
  unfold Memory.write
  split
  · next h => simp [Memory.read_erase, h]
  · rw [Memory.read_insert _ _ _ _ (fun _ w => Memory.not_mem_erase m a w), Memory.read_erase]
    by_cases hb : b = a <;> simp [hb]

/-- A read after a write of the state's memory (R32). -/
@[simp] theorem State.memWrite_memRead (s : State) (addr v x : Byte) :
    (s.memWrite addr v).memRead x = if x = addr then v else s.memRead x := by
  simp [State.memRead, Memory.read_write, BitVec.toNat_inj]

/-! ### The canonical form -/

theorem Memory.wfFrom_mono {lo lo' : Nat} (h : lo' ≤ lo) : ∀ {m : Memory},
    Memory.wfFrom lo m = true → Memory.wfFrom lo' m = true
  | [], _ => rfl
  | (k, v) :: m, hm => by
    simp only [Memory.wfFrom, Bool.and_eq_true, decide_eq_true_eq] at hm ⊢
    exact ⟨⟨⟨by omega, hm.1.1.2⟩, hm.1.2⟩, hm.2⟩

theorem Memory.wfFrom_erase (a : Nat) : ∀ {m : Memory} {lo : Nat},
    Memory.wfFrom lo m = true → Memory.wfFrom lo (Memory.erase m a) = true
  | [], _, _ => rfl
  | (k, v) :: m, lo, hm => by
    simp only [Memory.wfFrom, Bool.and_eq_true, decide_eq_true_eq] at hm
    have ih := Memory.wfFrom_erase a hm.2
    by_cases hk : k = a
    · simp only [Memory.erase, hk, if_true]
      exact Memory.wfFrom_mono (by omega) (hk ▸ ih)
    · simp only [Memory.erase, hk, if_false, Memory.wfFrom, Bool.and_eq_true, decide_eq_true_eq]
      exact ⟨hm.1, ih⟩

theorem Memory.wfFrom_insert (a : Nat) (v : Byte) (ha : a < Config.memSize) (hv : v ≠ Config.memReset) :
    ∀ {m : Memory} {lo : Nat}, lo ≤ a → (∀ w, (a, w) ∉ m) →
      Memory.wfFrom lo m = true → Memory.wfFrom lo (Memory.insert m a v) = true
  | [], lo, hlo, _, _ => by
    simp [Memory.insert, Memory.wfFrom, hlo, ha, hv]
  | (k, w) :: m, lo, hlo, hnot, hm => by
    simp only [Memory.wfFrom, Bool.and_eq_true, decide_eq_true_eq] at hm
    by_cases hlt : a < k
    · simp only [Memory.insert, hlt, if_true, Memory.wfFrom, Bool.and_eq_true, decide_eq_true_eq]
      exact ⟨⟨⟨hlo, ha⟩, hv⟩, ⟨⟨by omega, hm.1.1.2⟩, hm.1.2⟩, hm.2⟩
    · have hne : k ≠ a := fun e => hnot w (by simp [e])
      simp only [Memory.insert, hlt, if_false, Memory.wfFrom, Bool.and_eq_true, decide_eq_true_eq]
      exact ⟨hm.1, Memory.wfFrom_insert a v ha hv (by omega)
        (fun w' h' => hnot w' (List.mem_cons_of_mem _ h')) hm.2⟩

/-- Every memory write keeps the canonical form. -/
theorem Memory.wf_write {m : Memory} (hm : Memory.wf m = true) (a : Nat) (v : Byte) (ha : a < Config.memSize) :
    Memory.wf (Memory.write m a v) = true := by
  unfold Memory.wf at hm ⊢
  unfold Memory.write
  split
  · exact Memory.wfFrom_erase a hm
  · next hv => exact Memory.wfFrom_insert a v ha hv (Nat.zero_le _) (Memory.not_mem_erase m a) (Memory.wfFrom_erase a hm)

theorem State.memWrite_wf {s : State} (h : Memory.wf s.mem = true) (addr v : Byte) :
    Memory.wf (s.memWrite addr v).mem = true :=
  Memory.wf_write h addr.toNat v addr.isLt

theorem State.memWriteAll_wf : ∀ (vs : List Byte) {s : State}, Memory.wf s.mem = true → ∀ addr : Byte,
    Memory.wf (s.memWriteAll addr vs).mem = true
  | [], _, h, _ => h
  | _ :: vs, _, h, _ => State.memWriteAll_wf vs (State.memWrite_wf h _ _) _

/-- Writing bytes to memory changes nothing but memory. -/
theorem State.memWriteAll_frame : ∀ (vs : List Byte) (s : State) (addr : Byte),
    s.memWriteAll addr vs = { s with mem := (s.memWriteAll addr vs).mem }
  | [], _, _ => rfl
  | _ :: vs, s, _ => State.memWriteAll_frame vs (s.memWrite _ _) _

/-- Reset memory is in canonical form. -/
theorem State.reset_mem_wf : Memory.wf State.reset.mem = true := rfl

end Sys2Proof.Machine
end

