-- ==== Sys2Proof/Laws/Operands.lean ====
section
/-! SUPPORT. What the operand check does (spec/40_cycle.md R78): a byte is the byte of a register, or it is greater than
7 and the instruction faults. -/

namespace Sys2Proof.Machine

open Sys2Proof

@[simp] theorem regByte_toNat (r : RegId) : (regByte r).toNat = r.val := by
  revert r; decide

@[simp] theorem regIdx?_regByte (r : RegId) : regIdx? (regByte r) = some r := by
  revert r; decide

theorem regByte_of_le {k : Byte} (h : k.toNat < 8) : k = regByte ⟨k.toNat, h⟩ :=
  BitVec.eq_of_toNat_eq (by simp)

/-- An operand byte names a register or is out of range. -/
theorem regByte_or_bad (k : Byte) : (∃ r, k = regByte r) ∨ (7 < k.toNat ∧ regIdx? k = none) := by
  by_cases h : k.toNat < 8
  · exact .inl ⟨_, regByte_of_le h⟩
  · exact .inr ⟨by omega, by simp [regIdx?, h]⟩

@[simp] theorem withReg_regByte (m : Mnemonic) (r : RegId) (s : State) (f : RegId → Result) :
    withReg m (regByte r) s f = f r := by
  simp [withReg]

theorem withReg_bad (m : Mnemonic) {k : Byte} (h : 7 < k.toNat) (s : State) (f : RegId → Result) :
    withReg m k s f = .next (s.raise (.registerIndexOutOfRange k) (s.opcodeMap m)) := by
  have : regIdx? k = none := by simp [regIdx?, show ¬ k.toNat < 8 by omega]
  simp [withReg, this]

@[simp] theorem withRegs_regByte (m : Mnemonic) (ra rb : RegId) (s : State) (f : RegId → RegId → Result) :
    withRegs m (regByte ra) (regByte rb) s f = f ra rb := by
  simp [withRegs]

theorem withRegs_bad_first (m : Mnemonic) {k : Byte} (h : 7 < k.toNat) (b : Byte) (s : State)
    (f : RegId → RegId → Result) :
    withRegs m k b s f = .next (s.raise (.registerIndexOutOfRange k) (s.opcodeMap m)) :=
  withReg_bad m h s _

theorem withRegs_bad_second (m : Mnemonic) (ra : RegId) {k : Byte} (h : 7 < k.toNat) (s : State)
    (f : RegId → RegId → Result) :
    withRegs m (regByte ra) k s f = .next (s.raise (.registerIndexOutOfRange k) (s.opcodeMap m)) := by
  simp [withRegs, withReg_bad m h]

/-- Everything a one-register form can do: its effect on the register named, or the fault. -/
theorem withReg_cases (m : Mnemonic) (a : Byte) (s : State) (f : RegId → Result) :
    (∃ ra, a = regByte ra ∧ withReg m a s f = f ra) ∨
      (7 < a.toNat ∧ withReg m a s f = .next (s.raise (.registerIndexOutOfRange a) (s.opcodeMap m))) := by
  rcases regByte_or_bad a with ⟨ra, rfl⟩ | ⟨h, -⟩
  · exact .inl ⟨ra, rfl, withReg_regByte m ra s f⟩
  · exact .inr ⟨h, withReg_bad m h s f⟩

/-- Everything a two-register form can do: its effect on the registers named, or the fault of the first bad operand. -/
theorem withRegs_cases (m : Mnemonic) (a b : Byte) (s : State) (f : RegId → RegId → Result) :
    (∃ ra rb, a = regByte ra ∧ b = regByte rb ∧ withRegs m a b s f = f ra rb) ∨
      (∃ k, 7 < k.toNat ∧ withRegs m a b s f = .next (s.raise (.registerIndexOutOfRange k) (s.opcodeMap m))) := by
  rcases regByte_or_bad a with ⟨ra, rfl⟩ | ⟨ha, -⟩
  · rcases regByte_or_bad b with ⟨rb, rfl⟩ | ⟨hb, -⟩
    · exact .inl ⟨ra, rb, rfl, rfl, withRegs_regByte m ra rb s f⟩
    · exact .inr ⟨b, hb, withRegs_bad_second m ra hb s f⟩
  · exact .inr ⟨a, ha, withRegs_bad_first m ha b s f⟩

end Sys2Proof.Machine
end

