-- ==== Sys2Proof/Laws/Ops.lean ====
section
/-! SUPPORT. What a push, a pop, an interrupt dispatch and its return do to each field (spec/20_memory.md R34, R35;
spec/60_exceptions.md R165; spec/44_system_io.md R138). -/

namespace Sys2Proof.Machine

open Sys2Proof

/-! ### Push and pop -/

@[simp] theorem State.push_pc (s : State) (v : Byte) : (s.push v).pc = s.pc := rfl
@[simp] theorem State.push_fl (s : State) (v : Byte) : (s.push v).fl = s.fl := rfl
@[simp] theorem State.push_status (s : State) (v : Byte) : (s.push v).status = s.status := rfl
@[simp] theorem State.push_out (s : State) (v : Byte) : (s.push v).out = s.out := rfl
@[simp] theorem State.push_ticks (s : State) (v : Byte) : (s.push v).ticks = s.ticks := rfl
@[simp] theorem State.push_opcodes (s : State) (v : Byte) : (s.push v).opcodes = s.opcodes := rfl

@[simp] theorem State.push_reg (s : State) (v : Byte) (q : RegId) :
    (s.push v).reg q = if q = Config.spReg then s.reg Config.spReg - 1 else s.reg q := by
  simp [State.push]

@[simp] theorem State.push_memRead (s : State) (v x : Byte) :
    (s.push v).memRead x = if x = s.reg Config.spReg - 1 then v else s.memRead x := by
  simp [State.push]

theorem State.push_wf {s : State} (h : Memory.wf s.mem = true) (v : Byte) : Memory.wf (s.push v).mem = true :=
  State.memWrite_wf (s := s.setReg Config.spReg (s.reg Config.spReg - 1)) h _ _

@[simp] theorem State.drop_pc (s : State) : s.drop.pc = s.pc := rfl
@[simp] theorem State.drop_fl (s : State) : s.drop.fl = s.fl := rfl
@[simp] theorem State.drop_mem (s : State) : s.drop.mem = s.mem := rfl
@[simp] theorem State.drop_status (s : State) : s.drop.status = s.status := rfl
@[simp] theorem State.drop_out (s : State) : s.drop.out = s.out := rfl
@[simp] theorem State.drop_ticks (s : State) : s.drop.ticks = s.ticks := rfl
@[simp] theorem State.drop_opcodes (s : State) : s.drop.opcodes = s.opcodes := rfl
@[simp] theorem State.drop_memRead (s : State) (x : Byte) : s.drop.memRead x = s.memRead x := rfl

@[simp] theorem State.drop_reg (s : State) (q : RegId) :
    s.drop.reg q = if q = Config.spReg then s.reg Config.spReg + 1 else s.reg q := by
  simp [State.drop]

/-- The value `Pop()` returns, as a read of memory. -/
theorem State.top_eq (s : State) : s.top = s.memRead (s.reg Config.spReg) := rfl

@[simp] theorem State.popReg_pc (s : State) (r : RegId) : (s.popReg r).pc = s.pc := rfl
@[simp] theorem State.popReg_fl (s : State) (r : RegId) : (s.popReg r).fl = s.fl := rfl
@[simp] theorem State.popReg_mem (s : State) (r : RegId) : (s.popReg r).mem = s.mem := rfl
@[simp] theorem State.popReg_status (s : State) (r : RegId) : (s.popReg r).status = s.status := rfl
@[simp] theorem State.popReg_out (s : State) (r : RegId) : (s.popReg r).out = s.out := rfl
@[simp] theorem State.popReg_ticks (s : State) (r : RegId) : (s.popReg r).ticks = s.ticks := rfl
@[simp] theorem State.popReg_opcodes (s : State) (r : RegId) : (s.popReg r).opcodes = s.opcodes := rfl
@[simp] theorem State.popReg_memRead (s : State) (r : RegId) (x : Byte) :
    (s.popReg r).memRead x = s.memRead x := rfl

@[simp] theorem State.popReg_reg (s : State) (r q : RegId) :
    (s.popReg r).reg q =
      if q = r then s.top else if q = Config.spReg then s.reg Config.spReg + 1 else s.reg q := by
  simp [State.popReg]

/-! ### Taking an interrupt -/

@[simp] theorem State.pushRegs_pc : ∀ (rs : List RegId) (s : State), (s.pushRegs rs).pc = s.pc
  | [], _ => rfl
  | _ :: rs, _ => State.pushRegs_pc rs _

@[simp] theorem State.pushRegs_fl : ∀ (rs : List RegId) (s : State), (s.pushRegs rs).fl = s.fl
  | [], _ => rfl
  | _ :: rs, _ => State.pushRegs_fl rs _

@[simp] theorem State.pushRegs_status : ∀ (rs : List RegId) (s : State), (s.pushRegs rs).status = s.status
  | [], _ => rfl
  | _ :: rs, _ => State.pushRegs_status rs _

@[simp] theorem State.pushRegs_out : ∀ (rs : List RegId) (s : State), (s.pushRegs rs).out = s.out
  | [], _ => rfl
  | _ :: rs, _ => State.pushRegs_out rs _

@[simp] theorem State.pushRegs_ticks : ∀ (rs : List RegId) (s : State), (s.pushRegs rs).ticks = s.ticks
  | [], _ => rfl
  | _ :: rs, _ => State.pushRegs_ticks rs _

@[simp] theorem State.pushRegs_opcodes : ∀ (rs : List RegId) (s : State), (s.pushRegs rs).opcodes = s.opcodes
  | [], _ => rfl
  | _ :: rs, _ => State.pushRegs_opcodes rs _

theorem State.pushRegs_wf : ∀ (rs : List RegId) {s : State},
    Memory.wf s.mem = true → Memory.wf (s.pushRegs rs).mem = true
  | [], _, h => h
  | _ :: rs, _, h => State.pushRegs_wf rs (State.push_wf h _)

@[simp] theorem State.dispatch_fl (s : State) (i : Line) : (s.dispatch i).fl = s.fl := by simp [State.dispatch]
@[simp] theorem State.dispatch_status (s : State) (i : Line) : (s.dispatch i).status = s.status := by
  simp [State.dispatch]
@[simp] theorem State.dispatch_out (s : State) (i : Line) : (s.dispatch i).out = s.out := by simp [State.dispatch]
@[simp] theorem State.dispatch_ticks (s : State) (i : Line) : (s.dispatch i).ticks = s.ticks := by
  simp [State.dispatch]
@[simp] theorem State.dispatch_opcodes (s : State) (i : Line) : (s.dispatch i).opcodes = s.opcodes := by
  simp [State.dispatch]

theorem State.dispatch_wf {s : State} (h : Memory.wf s.mem = true) (i : Line) :
    Memory.wf (s.dispatch i).mem = true := by
  simp only [State.dispatch, State.setPc_mem]
  exact State.pushRegs_wf _ (State.push_wf (State.push_wf (by simpa using h) _) _)

/-- The registers after a dispatch: the stack pointer nine lower, the line's status bit clear, the rest as before. -/
theorem State.dispatch_reg (s : State) (i : Line) (q : RegId) :
    (s.dispatch i).reg q =
      if q = Config.spReg then s.reg Config.spReg - 9
      else if q = Config.isReg then s.reg Config.isReg &&& ~~~lineBit i
      else s.reg q := by
  by_cases h7 : q = Config.spReg
  · subst h7
    simp [State.dispatch, State.pushRegs, frameRegs, Config.spReg, Config.isReg, BitVec.sub_sub]
  · simp [State.dispatch, State.pushRegs, frameRegs, h7]

/-- What dispatch pushes, topmost byte first: `x[0]` to `x[6]` (IS with the line's bit clear), `fl`, `pc`. -/
def dispatchFrame (s : State) (i : Line) : List Byte :=
  [s.reg 0, s.reg 1, s.reg 2, s.reg 3, s.reg 4, s.reg 5, s.reg 6 &&& ~~~lineBit i, s.fl, s.pc]

/-- The memory after a dispatch, cell by cell: the nine bytes below the old stack pointer, the rest as before. -/
theorem State.dispatch_memRead (s : State) (i : Line) (x : Byte) :
    (s.dispatch i).memRead x =
      if (x - (s.reg 7 - 9)).toNat < 9 then (dispatchFrame s i).getD (x - (s.reg 7 - 9)).toNat 0
      else s.memRead x := by
  have h0 : (s.dispatch i).memRead x =
      if x = s.reg 7 - 9 then s.reg 0 else if x = s.reg 7 - 8 then s.reg 1
      else if x = s.reg 7 - 7 then s.reg 2 else if x = s.reg 7 - 6 then s.reg 3
      else if x = s.reg 7 - 5 then s.reg 4 else if x = s.reg 7 - 4 then s.reg 5
      else if x = s.reg 7 - 3 then s.reg 6 &&& ~~~lineBit i else if x = s.reg 7 - 2 then s.fl
      else if x = s.reg 7 - 1 then s.pc else s.memRead x := by
    simp [State.dispatch, State.pushRegs, frameRegs, Config.spReg, Config.isReg, BitVec.sub_sub]
  rw [h0]
  generalize s.reg 7 = S
  obtain ⟨d, rfl⟩ : ∃ d : Byte, x = S - 9 + d := ⟨x - (S - 9), by bv_omega⟩
  have e : ∀ c : Byte, (S - 9 + d = S - c) ↔ d = 9 - c := fun c => by constructor <;> intro h <;> bv_omega
  have e0 : S - 9 + d - (S - 9) = d := by bv_omega
  simp only [e, e0]
  by_cases hd : d.toNat < 9
  · have : d = 0 ∨ d = 1 ∨ d = 2 ∨ d = 3 ∨ d = 4 ∨ d = 5 ∨ d = 6 ∨ d = 7 ∨ d = 8 := by bv_omega
    rcases this with rfl | rfl | rfl | rfl | rfl | rfl | rfl | rfl | rfl <;> rfl
  · have hn : ∀ c : Byte, c.toNat < 9 → d ≠ c := fun c hc e => hd (e ▸ hc)
    rw [if_neg hd, if_neg (hn _ (by decide)), if_neg (hn _ (by decide)), if_neg (hn _ (by decide)),
      if_neg (hn _ (by decide)), if_neg (hn _ (by decide)), if_neg (hn _ (by decide)), if_neg (hn _ (by decide)),
      if_neg (hn _ (by decide)), if_neg (hn _ (by decide))]

/-- A dispatch continues at the byte the line's vector holds once the frame is pushed. -/
theorem State.dispatch_pc (s : State) (i : Line) : (s.dispatch i).pc = (s.dispatch i).memRead (vectorAddr i) := rfl

/-! ### The return from an interrupt -/

@[simp] theorem State.popRegs_mem : ∀ (rs : List RegId) (s : State), (s.popRegs rs).mem = s.mem
  | [], _ => rfl
  | _ :: rs, s => State.popRegs_mem rs (s.popReg _)

@[simp] theorem State.popRegs_status : ∀ (rs : List RegId) (s : State), (s.popRegs rs).status = s.status
  | [], _ => rfl
  | _ :: rs, s => State.popRegs_status rs (s.popReg _)

@[simp] theorem State.popRegs_out : ∀ (rs : List RegId) (s : State), (s.popRegs rs).out = s.out
  | [], _ => rfl
  | _ :: rs, s => State.popRegs_out rs (s.popReg _)

@[simp] theorem State.popRegs_ticks : ∀ (rs : List RegId) (s : State), (s.popRegs rs).ticks = s.ticks
  | [], _ => rfl
  | _ :: rs, s => State.popRegs_ticks rs (s.popReg _)

@[simp] theorem State.popRegs_opcodes : ∀ (rs : List RegId) (s : State), (s.popRegs rs).opcodes = s.opcodes
  | [], _ => rfl
  | _ :: rs, s => State.popRegs_opcodes rs (s.popReg _)

@[simp] theorem State.returnFromInterrupt_mem (s : State) : s.returnFromInterrupt.mem = s.mem := by
  simp [State.returnFromInterrupt]
@[simp] theorem State.returnFromInterrupt_status (s : State) : s.returnFromInterrupt.status = s.status := by
  simp [State.returnFromInterrupt]
@[simp] theorem State.returnFromInterrupt_out (s : State) : s.returnFromInterrupt.out = s.out := by
  simp [State.returnFromInterrupt]
@[simp] theorem State.returnFromInterrupt_ticks (s : State) : s.returnFromInterrupt.ticks = s.ticks := by
  simp [State.returnFromInterrupt]
@[simp] theorem State.returnFromInterrupt_opcodes (s : State) : s.returnFromInterrupt.opcodes = s.opcodes := by
  simp [State.returnFromInterrupt]

/-- The registers after the return: `x[k]` is the byte `k` above the stack pointer, which itself ends nine higher. -/
theorem State.returnFromInterrupt_reg (s : State) (q : RegId) :
    s.returnFromInterrupt.reg q =
      if q = Config.spReg then s.reg Config.spReg + 9
      else s.memRead (s.reg Config.spReg + BitVec.ofNat 8 q.val) := by
  fin_cases q <;>
    simp [State.returnFromInterrupt, State.popRegs, frameRegs, Config.spReg, State.top_eq, BitVec.add_assoc]

theorem State.returnFromInterrupt_fl (s : State) :
    s.returnFromInterrupt.fl = s.memRead (s.reg Config.spReg + 7) := by
  simp [State.returnFromInterrupt, State.popRegs, frameRegs, Config.spReg, State.top_eq, BitVec.add_assoc]

theorem State.returnFromInterrupt_pc (s : State) :
    s.returnFromInterrupt.pc = s.memRead (s.reg Config.spReg + 8) := by
  simp [State.returnFromInterrupt, State.popRegs, frameRegs, Config.spReg, State.top_eq, BitVec.add_assoc]

end Sys2Proof.Machine
end

