-- ==== Sys2Proof/Laws/Exec.lean ====
section
/-! SUPPORT. Once, everything an instruction can do (spec/40_cycle.md R77): `exec` always answers a next state, and that
state is one of the effects below. Proofs about all instructions go through it and do not unfold the meanings. -/

namespace Sys2Proof.Machine

open Sys2Proof

/-- Which instruction can raise which fault (spec/60_exceptions.md R150 to R152). -/
def CanRaise (i : Instr) : FaultCause → Prop
  | .unknownInstruction => False
  | .divisionByZero => i.mnemonic = .div ∨ i.mnemonic = .mod
  | .registerIndexOutOfRange k => 7 < k.toNat ∧ i.mnemonic.format ≠ .f0

/-- The instructions whose only effect is to write one register. -/
def registerOnly : List Mnemonic :=
  [.add, .sub, .mul, .div, .mod, .inc, .dec] ++ [.and, .or, .xor, .not, .shl, .shr, .ldi, .ld]

/-- The instructions whose only effect is to write `pc`, or nothing. -/
def jumps : List Mnemonic := [.jmp, .jeq, .jne, .jgt, .jlt, .jle, .jge]

/-- What an instruction can do to a state. -/
inductive ExecEffect (s : State) : Instr → State → Prop
  | fault {i : Instr} {c : FaultCause} : CanRaise i c → ExecEffect s i (s.raise c (s.opcodeMap i.mnemonic))
  | register {i : Instr} (r : RegId) (v : Byte) : i.mnemonic ∈ registerOnly → ExecEffect s i (s.setReg r v)
  | compare {a b : Byte} (x y : Byte) : ExecEffect s (.cmp a b) (s.setFl (compareFlags x y))
  | store {a b : Byte} (ra rb : RegId) : a = regByte ra → ExecEffect s (.st a b) (s.memWrite (s.reg ra) (s.reg rb))
  | push {a : Byte} (r : RegId) : ExecEffect s (.push a) (s.push (s.reg r))
  | pop {a : Byte} (r : RegId) : a = regByte r → ExecEffect s (.pop a) (s.popReg r)
  | jump {i : Instr} (target : Byte) : i.mnemonic ∈ jumps → ExecEffect s i (s.setPc target)
  | noJump {i : Instr} : i.mnemonic ∈ jumps → ExecEffect s i s
  | call {a : Byte} (r : RegId) : ExecEffect s (.call a) ((s.push s.pc).setPc ((s.push s.pc).reg r))
  | ret : ExecEffect s .ret (s.drop.setPc s.top)
  | hlt : ExecEffect s .hlt s.halt
  | prn {a : Byte} (v : Byte) : ExecEffect s (.prn a) (s.emit (.prn v))
  | pra {a : Byte} (v : Byte) : ExecEffect s (.pra a) (s.emit (.pra v))
  | iret : ExecEffect s .iret s.returnFromInterrupt

/-- A one-register form has one of the effects, if its effect on a named register is one. -/
theorem withReg_effect {i : Instr} {m : Mnemonic} {a : Byte} {s : State} {f : RegId → Result}
    (hm : i.mnemonic = m) (hf : m.format ≠ .f0)
    (h : ∀ ra, a = regByte ra → ∃ t, f ra = .next t ∧ ExecEffect s i t) :
    ∃ t, withReg m a s f = .next t ∧ ExecEffect s i t := by
  subst hm
  rcases withReg_cases i.mnemonic a s f with ⟨ra, ha, he⟩ | ⟨hk, he⟩
  · rw [he]; exact h ra ha
  · exact ⟨_, he, .fault ⟨hk, hf⟩⟩

/-- A two-register form has one of the effects, if its effect on named registers is one. -/
theorem withRegs_effect {i : Instr} {m : Mnemonic} {a b : Byte} {s : State} {f : RegId → RegId → Result}
    (hm : i.mnemonic = m) (hf : m.format ≠ .f0)
    (h : ∀ ra rb, a = regByte ra → ∃ t, f ra rb = .next t ∧ ExecEffect s i t) :
    ∃ t, withRegs m a b s f = .next t ∧ ExecEffect s i t := by
  subst hm
  rcases withRegs_cases i.mnemonic a b s f with ⟨ra, rb, ha, -, he⟩ | ⟨k, hk, he⟩
  · rw [he]; exact h ra rb ha
  · exact ⟨_, he, .fault ⟨hk, hf⟩⟩

theorem aluBinary_effect {i : Instr} {m : Mnemonic} (f : Byte → Byte → Byte) {a b : Byte} {s : State}
    (hm : i.mnemonic = m) (hf : m.format ≠ .f0) (hr : m ∈ registerOnly) :
    ∃ t, aluBinary m f a b s = .next t ∧ ExecEffect s i t :=
  withRegs_effect hm hf fun _ _ _ => ⟨_, rfl, .register _ _ (hm ▸ hr)⟩

theorem aluUnary_effect {i : Instr} {m : Mnemonic} (f : Byte → Byte) {a : Byte} {s : State}
    (hm : i.mnemonic = m) (hf : m.format ≠ .f0) (hr : m ∈ registerOnly) :
    ∃ t, aluUnary m f a s = .next t ∧ ExecEffect s i t :=
  withReg_effect hm hf fun _ _ => ⟨_, rfl, .register _ _ (hm ▸ hr)⟩

theorem aluDivide_effect {i : Instr} {m : Mnemonic} (f : Byte → Byte → Byte) {a b : Byte} {s : State}
    (hm : i.mnemonic = m) (hf : m.format ≠ .f0) (hr : m ∈ registerOnly) (hd : m = .div ∨ m = .mod) :
    ∃ t, aluDivide m f a b s = .next t ∧ ExecEffect s i t := by
  subst hm
  refine withRegs_effect rfl hf fun ra rb _ => ?_
  by_cases hz : s.reg rb = 0
  · exact ⟨_, if_pos hz, .fault hd⟩
  · exact ⟨_, if_neg hz, .register _ _ hr⟩

theorem jumpIf_effect {i : Instr} {m : Mnemonic} (cond : Byte → Bool) {a : Byte} {s : State}
    (hm : i.mnemonic = m) (hf : m.format ≠ .f0) (hj : m ∈ jumps) :
    ∃ t, jumpIf m cond a s = .next t ∧ ExecEffect s i t := by
  refine withReg_effect hm hf fun ra _ => ⟨_, rfl, ?_⟩
  by_cases hc : cond s.fl
  · rw [if_pos hc]; exact .jump _ (hm ▸ hj)
  · rw [if_neg hc]; exact .noJump (hm ▸ hj)

/-- Every instruction answers a next state, by one of the effects. -/
theorem exec_effect (i : Instr) (s : State) : ∃ t, exec i s = .next t ∧ ExecEffect s i t := by
  cases i with
  | hlt => exact ⟨_, rfl, .hlt⟩
  | ret => exact ⟨_, rfl, .ret⟩
  | iret => exact ⟨_, rfl, .iret⟩
  | push a => exact withReg_effect rfl (by decide) fun _ _ => ⟨_, rfl, .push _⟩
  | pop a => exact withReg_effect rfl (by decide) fun _ ha => ⟨_, rfl, .pop _ ha⟩
  | prn a => exact withReg_effect rfl (by decide) fun _ _ => ⟨_, rfl, .prn _⟩
  | pra a => exact withReg_effect rfl (by decide) fun _ _ => ⟨_, rfl, .pra _⟩
  | call a => exact withReg_effect rfl (by decide) fun _ _ => ⟨_, rfl, .call _⟩
  | jmp a => exact withReg_effect rfl (by decide) fun _ _ => ⟨_, rfl, .jump _ (by simp [jumps, Instr.mnemonic])⟩
  | jeq a => exact jumpIf_effect condEq rfl (by decide) (by decide)
  | jne a => exact jumpIf_effect condNe rfl (by decide) (by decide)
  | jgt a => exact jumpIf_effect condGt rfl (by decide) (by decide)
  | jlt a => exact jumpIf_effect condLt rfl (by decide) (by decide)
  | jle a => exact jumpIf_effect condLe rfl (by decide) (by decide)
  | jge a => exact jumpIf_effect condGe rfl (by decide) (by decide)
  | inc a => exact aluUnary_effect (i := .inc a) (fun x => x + 1) rfl (by decide) (by decide)
  | dec a => exact aluUnary_effect (i := .dec a) (fun x => x - 1) rfl (by decide) (by decide)
  | not a => exact aluUnary_effect _ rfl (by decide) (by decide)
  | ldi a imm =>
    exact withReg_effect rfl (by decide) fun _ _ => ⟨_, rfl, .register _ _ (by simp [registerOnly, Instr.mnemonic])⟩
  | ld a b =>
    exact withRegs_effect rfl (by decide) fun _ _ _ => ⟨_, rfl, .register _ _ (by simp [registerOnly, Instr.mnemonic])⟩
  | st a b => exact withRegs_effect rfl (by decide) fun _ _ ha => ⟨_, rfl, .store _ _ ha⟩
  | add a b => exact aluBinary_effect _ rfl (by decide) (by decide)
  | sub a b => exact aluBinary_effect _ rfl (by decide) (by decide)
  | mul a b => exact aluBinary_effect _ rfl (by decide) (by decide)
  | div a b => exact aluDivide_effect _ rfl (by decide) (by decide) (by decide)
  | mod a b => exact aluDivide_effect _ rfl (by decide) (by decide) (by decide)
  | cmp a b => exact withRegs_effect rfl (by decide) fun _ _ _ => ⟨_, rfl, .compare _ _⟩
  | and a b => exact aluBinary_effect _ rfl (by decide) (by decide)
  | or a b => exact aluBinary_effect _ rfl (by decide) (by decide)
  | xor a b => exact aluBinary_effect _ rfl (by decide) (by decide)
  | shl a b => exact aluBinary_effect _ rfl (by decide) (by decide)
  | shr a b => exact aluBinary_effect _ rfl (by decide) (by decide)

/-- Inversion: what `exec` answered is one of the effects. -/
theorem exec_next_effect {i : Instr} {s t : State} (h : exec i s = .next t) : ExecEffect s i t := by
  obtain ⟨t', h', he⟩ := exec_effect i s
  rw [h] at h'
  cases h'
  exact he

/-- No instruction touches the coming ticks or the opcode map. -/
theorem ExecEffect.arguments {s t : State} {i : Instr} (h : ExecEffect s i t) :
    t.ticks = s.ticks ∧ t.opcodes = s.opcodes := by
  cases h <;> simp

/-- Every instruction keeps the canonical form of memory. -/
theorem ExecEffect.wf {s t : State} {i : Instr} (h : ExecEffect s i t) (hs : Memory.wf s.mem = true) :
    Memory.wf t.mem = true := by
  cases h with
  | fault _ => exact hs
  | register r v _ => exact hs
  | compare x y => exact hs
  | store ra rb _ => exact State.memWrite_wf hs _ _
  | push r => exact State.push_wf hs _
  | pop r _ => exact hs
  | jump target _ => exact hs
  | noJump _ => exact hs
  | call r => exact State.push_wf hs _
  | ret => exact hs
  | hlt => exact hs
  | prn v => exact hs
  | pra v => exact hs
  | iret => rw [State.returnFromInterrupt_mem]; exact hs

end Sys2Proof.Machine
end

