-- ==== Sys2Proof/Laws/PerInstr.lean ====
section
/-! SUPPORT. Statements about every instruction as syntax, one lemma per constructor (LAWS.json "per_instruction"). -/

namespace Sys2Proof.Laws

/-- Family Rebuild: the mnemonic and the operand bytes of an instruction determine it, and their number is the one its
format fixes (spec/30_encoding.md R50, R51). -/
def Rebuild.Statement (i : Instr) : Prop :=
  i.mnemonic.instr? i.operands = some i ∧ i.operands.length = i.mnemonic.format.operandBytes

theorem Rebuild.hlt : Rebuild.Statement .hlt := ⟨rfl, rfl⟩
theorem Rebuild.ret : Rebuild.Statement .ret := ⟨rfl, rfl⟩
theorem Rebuild.iret : Rebuild.Statement .iret := ⟨rfl, rfl⟩
theorem Rebuild.push (a : Byte) : Rebuild.Statement (.push a) := ⟨rfl, rfl⟩
theorem Rebuild.pop (a : Byte) : Rebuild.Statement (.pop a) := ⟨rfl, rfl⟩
theorem Rebuild.prn (a : Byte) : Rebuild.Statement (.prn a) := ⟨rfl, rfl⟩
theorem Rebuild.pra (a : Byte) : Rebuild.Statement (.pra a) := ⟨rfl, rfl⟩
theorem Rebuild.call (a : Byte) : Rebuild.Statement (.call a) := ⟨rfl, rfl⟩
theorem Rebuild.jmp (a : Byte) : Rebuild.Statement (.jmp a) := ⟨rfl, rfl⟩
theorem Rebuild.jeq (a : Byte) : Rebuild.Statement (.jeq a) := ⟨rfl, rfl⟩
theorem Rebuild.jne (a : Byte) : Rebuild.Statement (.jne a) := ⟨rfl, rfl⟩
theorem Rebuild.jgt (a : Byte) : Rebuild.Statement (.jgt a) := ⟨rfl, rfl⟩
theorem Rebuild.jlt (a : Byte) : Rebuild.Statement (.jlt a) := ⟨rfl, rfl⟩
theorem Rebuild.jle (a : Byte) : Rebuild.Statement (.jle a) := ⟨rfl, rfl⟩
theorem Rebuild.jge (a : Byte) : Rebuild.Statement (.jge a) := ⟨rfl, rfl⟩
theorem Rebuild.inc (a : Byte) : Rebuild.Statement (.inc a) := ⟨rfl, rfl⟩
theorem Rebuild.dec (a : Byte) : Rebuild.Statement (.dec a) := ⟨rfl, rfl⟩
theorem Rebuild.not (a : Byte) : Rebuild.Statement (.not a) := ⟨rfl, rfl⟩
theorem Rebuild.ldi (a b : Byte) : Rebuild.Statement (.ldi a b) := ⟨rfl, rfl⟩
theorem Rebuild.ld (a b : Byte) : Rebuild.Statement (.ld a b) := ⟨rfl, rfl⟩
theorem Rebuild.st (a b : Byte) : Rebuild.Statement (.st a b) := ⟨rfl, rfl⟩
theorem Rebuild.add (a b : Byte) : Rebuild.Statement (.add a b) := ⟨rfl, rfl⟩
theorem Rebuild.sub (a b : Byte) : Rebuild.Statement (.sub a b) := ⟨rfl, rfl⟩
theorem Rebuild.mul (a b : Byte) : Rebuild.Statement (.mul a b) := ⟨rfl, rfl⟩
theorem Rebuild.div (a b : Byte) : Rebuild.Statement (.div a b) := ⟨rfl, rfl⟩
theorem Rebuild.mod (a b : Byte) : Rebuild.Statement (.mod a b) := ⟨rfl, rfl⟩
theorem Rebuild.cmp (a b : Byte) : Rebuild.Statement (.cmp a b) := ⟨rfl, rfl⟩
theorem Rebuild.and (a b : Byte) : Rebuild.Statement (.and a b) := ⟨rfl, rfl⟩
theorem Rebuild.or (a b : Byte) : Rebuild.Statement (.or a b) := ⟨rfl, rfl⟩
theorem Rebuild.xor (a b : Byte) : Rebuild.Statement (.xor a b) := ⟨rfl, rfl⟩
theorem Rebuild.shl (a b : Byte) : Rebuild.Statement (.shl a b) := ⟨rfl, rfl⟩
theorem Rebuild.shr (a b : Byte) : Rebuild.Statement (.shr a b) := ⟨rfl, rfl⟩

end Sys2Proof.Laws
end

