-- ==== Sys2Proof/Laws/Step.lean ====
section
/-! SUPPORT. Once, everything a step can do (spec/40_cycle.md R70): the phases before the execution, and the cases of
the execution. -/

namespace Sys2Proof.Machine

open Sys2Proof

/-! ### The open arguments -/

/-- The opcode map of the machine after reset is the default one, so it is legal. -/
@[simp] theorem State.reset_opcodeMap : State.reset.opcodeMap = defaultOpcodeMap := OpcodeMap.table_map _

theorem State.reset_opcodes_legal : State.reset.opcodeMap.Legal := by
  rw [State.reset_opcodeMap]; exact defaultOpcodeMap_legal

/-- Free ticks stay free for ever: the tick `n` cycles on is the free bit of that cycle number (R160). -/
theorem TickInput.free_tail : ∀ n k : Nat, (TickInput.tail^[n] (.free k)).head = Config.freeTick (k + n)
  | 0, _ => rfl
  | n + 1, k => by
    rw [Function.iterate_succ_apply, TickInput.tail, TickInput.free_tail n (k + 1), Nat.add_right_comm]
    rfl

/-! ### Phases 1 and 2 -/

/-- Phase 1 does nothing, or dispatches the lowest pending line (R70). -/
theorem State.interruptCheck_cases (s : State) :
    (lowestLine? s.pending = none ∧ s.interruptCheck = s) ∨
      ∃ i, lowestLine? s.pending = some i ∧ s.interruptCheck = s.dispatch i := by
  unfold State.interruptCheck
  cases h : lowestLine? s.pending with
  | none => exact .inl ⟨rfl, rfl⟩
  | some i => exact .inr ⟨i, rfl, rfl⟩

@[simp] theorem State.interruptCheck_fl (s : State) : s.interruptCheck.fl = s.fl := by
  rcases s.interruptCheck_cases with ⟨-, h⟩ | ⟨i, -, h⟩ <;> simp [h]

@[simp] theorem State.interruptCheck_status (s : State) : s.interruptCheck.status = s.status := by
  rcases s.interruptCheck_cases with ⟨-, h⟩ | ⟨i, -, h⟩ <;> simp [h]

@[simp] theorem State.interruptCheck_out (s : State) : s.interruptCheck.out = s.out := by
  rcases s.interruptCheck_cases with ⟨-, h⟩ | ⟨i, -, h⟩ <;> simp [h]

@[simp] theorem State.interruptCheck_ticks (s : State) : s.interruptCheck.ticks = s.ticks := by
  rcases s.interruptCheck_cases with ⟨-, h⟩ | ⟨i, -, h⟩ <;> simp [h]

@[simp] theorem State.interruptCheck_opcodes (s : State) : s.interruptCheck.opcodes = s.opcodes := by
  rcases s.interruptCheck_cases with ⟨-, h⟩ | ⟨i, -, h⟩ <;> simp [h]

theorem State.interruptCheck_wf {s : State} (hs : Memory.wf s.mem = true) :
    Memory.wf s.interruptCheck.mem = true := by
  rcases s.interruptCheck_cases with ⟨-, h⟩ | ⟨i, -, h⟩ <;> rw [h]
  · exact hs
  · exact State.dispatch_wf hs i

@[simp] theorem State.timerCheck_pc (s : State) (b : Bool) : (s.timerCheck b).pc = s.pc := by cases b <;> rfl
@[simp] theorem State.timerCheck_fl (s : State) (b : Bool) : (s.timerCheck b).fl = s.fl := by cases b <;> rfl
@[simp] theorem State.timerCheck_mem (s : State) (b : Bool) : (s.timerCheck b).mem = s.mem := by cases b <;> rfl
@[simp] theorem State.timerCheck_status (s : State) (b : Bool) : (s.timerCheck b).status = s.status := by
  cases b <;> rfl
@[simp] theorem State.timerCheck_out (s : State) (b : Bool) : (s.timerCheck b).out = s.out := by cases b <;> rfl
@[simp] theorem State.timerCheck_ticks (s : State) (b : Bool) : (s.timerCheck b).ticks = s.ticks := by
  cases b <;> rfl
@[simp] theorem State.timerCheck_opcodes (s : State) (b : Bool) : (s.timerCheck b).opcodes = s.opcodes := by
  cases b <;> rfl

/-- Phase 2 sets the timer's status bit on a tick and touches no other register (R160). -/
theorem State.timerCheck_reg (s : State) (b : Bool) (q : RegId) :
    (s.timerCheck b).reg q =
      if b = true ∧ q = Config.isReg then s.reg Config.isReg ||| lineBit Config.timerLine else s.reg q := by
  cases b <;> simp [State.timerCheck]

/-- Phases 1 and 2 leave the opcode map as it is. -/
theorem State.atFetch_opcodeMap (s : State) (b : Bool) : (s.atFetch b).opcodeMap = s.opcodeMap := by
  simp [State.opcodeMap, State.atFetch]

/-! ### Phase 3 -/

theorem State.fetchedBytes_length : ∀ (n : Nat) (s : State), (s.fetchedBytes n).length = n
  | 0, _ => rfl
  | n + 1, s => by simp [State.fetchedBytes, State.fetchedBytes_length n]

/-- Fetching `n` bytes moves `pc` on by `n` and does nothing else (R73, R75). -/
theorem State.advanceBy_eq : ∀ (n : Nat) (s : State), s.advanceBy n = s.setPc (s.pc + BitVec.ofNat 8 n)
  | 0, s => by simp [State.advanceBy, State.setPc]
  | n + 1, s => by
    rw [State.advanceBy, State.advanceBy_eq n]
    simp only [State.advance, State.setPc, BitVec.add_assoc]
    congr 2
    rw [Nat.add_comm n 1, BitVec.ofNat_add, BitVec.ofNat_eq_ofNat]

/-- After the fetch `pc` is past the opcode byte and its operand bytes, and nothing else has changed (R15, R75). -/
theorem State.afterFetch_eq (s : State) :
    s.afterFetch = s.setPc (s.pc + 1 + BitVec.ofNat 8 (operandCount s.fetchedByte)) := by
  simp [State.afterFetch, State.advanceBy_eq, State.advance, State.setPc]

/-- The fetch leaves the opcode map as it is. -/
theorem State.afterFetch_opcodeMap (s : State) : s.afterFetch.opcodeMap = s.opcodeMap := by
  rw [State.afterFetch_eq]; rfl

/-! ### Phase 4 -/

/-- What the lookup of an opcode byte can raise under an opcode map: the byte is one of no instruction (a legal map
granted), or a register operand is out of range (R150, R152). -/
def LookupRaises (m : OpcodeMap) (op : Byte) (c : FaultCause) : Prop :=
  (c = .unknownInstruction ∧ (m.Legal → ∀ k, m k ≠ op)) ∨
    ∃ o, c = .registerIndexOutOfRange o ∧ 7 < o.toNat ∧ ∃ k, m k = op ∧ k.format ≠ .f0

/-- Everything the execution of an instruction's bytes can do. -/
theorem executeBytes_cases {op : Byte} {tail : List Byte} (h : operandCount op = tail.length) (s : State) :
    (∃ i : Instr, s.opcodeMap i.mnemonic = op ∧ decodeWith s.opcodeMap (op :: tail) = .instr i [] ∧
        executeBytes (op :: tail) s = exec i s) ∨
      (∃ c, LookupRaises s.opcodeMap op c ∧ executeBytes (op :: tail) s = .next (s.raise c op)) := by
  rcases decodeWith_cases s.opcodeMap (Nat.le_of_eq h) with
    ⟨i, hd, hi, -, -⟩ | ⟨hd, hop⟩ | ⟨i, o, hd, hi, -, hb⟩
  · rw [h, List.drop_length] at hd
    exact .inl ⟨i, hi, hd, by simp [executeBytes, hd]⟩
  · exact .inr ⟨_, .inl ⟨rfl, hop⟩, by simp [executeBytes, hd]⟩
  · have hk := Instr.badOperand?_some hb
    exact .inr ⟨_, .inr ⟨o, rfl, hk.1, i.mnemonic, hi, hk.2⟩, by simp [executeBytes, hd]⟩

/-- A running core does a cycle, a stopped one nothing (R20, R70). -/
theorem step_running {s : State} (h : s.status = .running) : step s = cycle s.nextTick s.takeTick := by
  simp [step, h]

theorem step_stopped {s : State} (h : s.status ≠ .running) : step s = .next s := by
  cases hs : s.status with
  | running => exact absurd hs h
  | halted => simp [step, hs]
  | faulted c op p => simp [step, hs]

/-- Everything a cycle can do: execute the instruction fetched, or raise one of the two faults of the lookup. -/
theorem cycle_cases (tick : Bool) (s : State) :
    (∃ i : Instr, s.opcodeMap i.mnemonic = (s.atFetch tick).fetchedByte ∧
        decodeWith s.opcodeMap (s.atFetch tick).instructionBytes = .instr i [] ∧
        cycle tick s = exec i (s.atFetch tick).afterFetch) ∨
      (∃ c, LookupRaises s.opcodeMap (s.atFetch tick).fetchedByte c ∧
        cycle tick s = .next ((s.atFetch tick).afterFetch.raise c (s.atFetch tick).fetchedByte)) := by
  have h := executeBytes_cases (State.fetchedBytes_length (operandCount (s.atFetch tick).fetchedByte)
    (s.atFetch tick).advance).symm (s.atFetch tick).afterFetch
  rw [State.afterFetch_opcodeMap, State.atFetch_opcodeMap] at h
  exact h

/-- Every step answers a next state: `fault` and `refused` are never raised (R70, R82; log entries 4 and 25). -/
theorem step_answers_next (s : State) : ∃ t, step s = .next t := by
  by_cases hs : s.status = .running
  · rw [step_running hs]
    rcases cycle_cases s.nextTick s.takeTick with ⟨i, -, -, he⟩ | ⟨c, -, he⟩
    · obtain ⟨t, ht, -⟩ := exec_effect i (s.takeTick.atFetch s.nextTick).afterFetch
      exact ⟨t, he.trans ht⟩
    · exact ⟨_, he⟩
  · exact ⟨s, step_stopped hs⟩

/-- Everything a step of a running core can do: the effect of the instruction fetched, or one of the two faults of the
lookup, on the state the fetch left. -/
theorem step_cases {s t : State} (hs : s.isRunning) (h : step s = .next t) :
    (∃ i : Instr, s.opcodeMap i.mnemonic = s.fetchState.fetchedByte ∧ ExecEffect s.fetchState.afterFetch i t) ∨
      (∃ c, LookupRaises s.opcodeMap s.fetchState.fetchedByte c ∧
        t = s.fetchState.afterFetch.raise c s.fetchState.fetchedByte) := by
  rw [step_running hs] at h
  rcases cycle_cases s.nextTick s.takeTick with ⟨i, hm, -, he⟩ | ⟨c, hc, he⟩
  · exact .inl ⟨i, hm, exec_next_effect (he.symm.trans h)⟩
  · refine .inr ⟨c, hc, ?_⟩
    have hn := he.symm.trans h
    injection hn with hn
    exact hn.symm

end Sys2Proof.Machine
end

