-- ==== Sys2Proof/Tests/Slice0.lean ====
section
/-! SUPPORT. The model's own tests: decoding of words written out from spec/30_encoding.md R51 and R56, well-formedness,
one cycle per vector of spec/95_test_vectors.md (V1 to V7: expected values are the spec's), and, for every statement with
hypotheses, a state and operands that meet them together. -/

open Sys2Proof Sys2Proof.Machine

/-! ### Well-formedness -/

theorem test_wf_first_operand_refused : (Instr.add 8 0).wf = false := by decide
theorem test_wf_second_operand_refused : (Instr.add 0 8).wf = false := by decide
theorem test_wf_only_operand_refused : (Instr.push 255).wf = false := by decide
theorem test_wf_immediate_not_checked : (Instr.ldi 7 255).wf = true := by decide
theorem test_wf_reports_first_bad_operand : (Instr.add 9 10).badOperand? = some 9 := by decide

/-! ### Decoding, every constructor, from words written bit by bit (30_encoding.md R51, R56) -/

theorem test_decode_f0 :
    decode [0b00000001] = .instr .hlt [] ∧ decode [0b00010001] = .instr .ret [] ∧
    decode [0b00010011] = .instr .iret [] := by decide

theorem test_decode_f1_stack_and_jumps :
    decode [0b01000101, 0b00000000] = .instr (.push 0) [] ∧
    decode [0b01000110, 0b00000001] = .instr (.pop 1) [] ∧
    decode [0b01000111, 0b00000000] = .instr (.prn 0) [] ∧
    decode [0b01001000, 0b00000010] = .instr (.pra 2) [] ∧
    decode [0b01010000, 0b00000001] = .instr (.call 1) [] ∧
    decode [0b01010100, 0b00000010] = .instr (.jmp 2) [] ∧
    decode [0b01010101, 0b00000011] = .instr (.jeq 3) [] := by decide

theorem test_decode_f1_jumps_and_alu :
    decode [0b01010110, 0b00000100] = .instr (.jne 4) [] ∧
    decode [0b01010111, 0b00000101] = .instr (.jgt 5) [] ∧
    decode [0b01011000, 0b00000110] = .instr (.jlt 6) [] ∧
    decode [0b01011001, 0b00000111] = .instr (.jle 7) [] ∧
    decode [0b01011010, 0b00000001] = .instr (.jge 1) [] ∧
    decode [0b01100101, 0b00000011] = .instr (.inc 3) [] ∧
    decode [0b01100110, 0b00000000] = .instr (.dec 0) [] ∧
    decode [0b01101001, 0b00000111] = .instr (.not 7) [] := by decide

theorem test_decode_f2_data_and_arithmetic :
    decode [0b10000011, 0b00000100, 0b00000011] = .instr (.ld 4 3) [] ∧
    decode [0b10000100, 0b00000011, 0b00000000] = .instr (.st 3 0) [] ∧
    decode [0b10100000, 0b00000000, 0b00000001] = .instr (.add 0 1) [] ∧
    decode [0b10100001, 0b00000010, 0b00000011] = .instr (.sub 2 3) [] ∧
    decode [0b10100010, 0b00000000, 0b00000111] = .instr (.mul 0 7) [] ∧
    decode [0b10100011, 0b00000111, 0b00000001] = .instr (.div 7 1) [] ∧
    decode [0b10100100, 0b00000101, 0b00000110] = .instr (.mod 5 6) [] ∧
    decode [0b10000010, 0b00000001, 0b00001001] = .instr (.ldi 1 9) [] := by decide

theorem test_decode_f2_compare_logic_shift :
    decode [0b10100111, 0b00000000, 0b00000011] = .instr (.cmp 0 3) [] ∧
    decode [0b10101000, 0b00000001, 0b00000010] = .instr (.and 1 2) [] ∧
    decode [0b10101010, 0b00000110, 0b00000000] = .instr (.or 6 0) [] ∧
    decode [0b10101011, 0b00000101, 0b00000101] = .instr (.xor 5 5) [] ∧
    decode [0b10101100, 0b00000010, 0b00000100] = .instr (.shl 2 4) [] ∧
    decode [0b10101101, 0b00000100, 0b00000010] = .instr (.shr 4 2) [] := by decide

/-- V5 of 95_test_vectors.md: unknown bytes, the first bad operand, unknown before bad operands, the immediate free. -/
theorem test_decode_rejects_by_name :
    decode [0x00] = .unknownInstruction 0x00 ∧ decode [0x52, 0x09] = .unknownInstruction 0x52 ∧
    decode [0xA9, 0x09, 0x09] = .unknownInstruction 0xA9 ∧ decode [0xFF, 0, 0, 0] = .unknownInstruction 0xFF ∧
    decode [0xA0, 0x09, 0x0A] = .registerIndexOutOfRange 0xA0 0x09 ∧
    decode [0xA0, 0x00, 0xFF] = .registerIndexOutOfRange 0xA0 0xFF ∧
    decode [0x82, 0x08, 0x01] = .registerIndexOutOfRange 0x82 0x08 ∧ decode [0xA0, 0x00] = .incomplete := by decide

/-- R58: 224 of the 256 opcode bytes are unknown: 61, 49, 50 and 64 by their bits 7:6. -/
theorem test_unknown_opcode_count :
    ([0, 64, 128, 192].map fun base => ((List.range 64).filter
      (fun n => (defaultOpcodeMap.lookup (BitVec.ofNat 8 (base + n))).isNone)).length) = [61, 49, 50, 64] := by decide

/-- The numbering of spec/opcode_table.json: bit 0 is the least significant bit of the first byte. -/
theorem test_table_word : decodeTableWord 24 0x0100A0 = some (.add 0 1) ∧ decodeTableWord 8 0x01 = some .hlt ∧
    decodeTableWord 24 0x080082 = some (.ldi 0 8) ∧ decodeTableWord 16 0x0947 = none := by decide

/-! ### One cycle per vector -/

/-- The machine after reset with an image at address 0 and some registers preset. -/
def testBoot (image : List Byte) (regs : List (RegId × Byte)) : State :=
  regs.foldl (fun s p => s.setReg p.1 p.2) (State.reset.memWriteAll 0 image)

/-- Whether one step answers a next state that passes a check. -/
def testStep (s : State) (check : State → Bool) : Bool :=
  match step s with
  | .next t => check t
  | .fault _ => false
  | .refused _ => false

/-! V1 -/

theorem test_add :
    testStep (testBoot [0xA0, 0x00, 0x01] [(0, 0x08), (1, 0x09)])
      (fun t => t.reg 0 == 0x11 && t.reg 1 == 0x09 && t.pc == 0x03 && t.fl == 0x00) = true := by decide

theorem test_add_wraps :
    testStep (testBoot [0xA0, 0x00, 0x01] [(0, 0xC8), (1, 0x64)])
      (fun t => t.reg 0 == 0x2C && t.reg 1 == 0x64 && t.pc == 0x03 && t.fl == 0x00) = true := by decide

theorem test_sub_borrows :
    testStep (testBoot [0xA1, 0x00, 0x01] [(0, 0x05), (1, 0x0A)])
      (fun t => t.reg 0 == 0xFB && t.reg 1 == 0x0A && t.pc == 0x03 && t.fl == 0x00) = true := by decide

theorem test_mul :
    testStep (testBoot [0xA2, 0x00, 0x01] [(0, 0xC8), (1, 0x03)])
      (fun t => t.reg 0 == 0x58 && t.reg 1 == 0x03 && t.pc == 0x03 && t.fl == 0x00) = true := by decide

theorem test_mul_top :
    testStep (testBoot [0xA2, 0x00, 0x01] [(0, 0xFF), (1, 0xFF)])
      (fun t => t.reg 0 == 0x01 && t.reg 1 == 0xFF && t.pc == 0x03 && t.fl == 0x00) = true := by decide

theorem test_div :
    testStep (testBoot [0xA3, 0x00, 0x01] [(0, 0x11), (1, 0x05)])
      (fun t => t.reg 0 == 0x03 && t.reg 1 == 0x05 && t.pc == 0x03 && t.fl == 0x00) = true := by decide

theorem test_div_unsigned :
    testStep (testBoot [0xA3, 0x00, 0x01] [(0, 0xFF), (1, 0x02)])
      (fun t => t.reg 0 == 0x7F && t.reg 1 == 0x02 && t.pc == 0x03 && t.fl == 0x00) = true := by decide

theorem test_mod :
    testStep (testBoot [0xA4, 0x00, 0x01] [(0, 0xFF), (1, 0x10)])
      (fun t => t.reg 0 == 0x0F && t.reg 1 == 0x10 && t.pc == 0x03 && t.fl == 0x00) = true := by decide

theorem test_and :
    testStep (testBoot [0xA8, 0x00, 0x01] [(0, 0xCC), (1, 0xAA)])
      (fun t => t.reg 0 == 0x88 && t.reg 1 == 0xAA && t.pc == 0x03 && t.fl == 0x00) = true := by decide

theorem test_or :
    testStep (testBoot [0xAA, 0x00, 0x01] [(0, 0xCC), (1, 0xAA)])
      (fun t => t.reg 0 == 0xEE && t.reg 1 == 0xAA && t.pc == 0x03 && t.fl == 0x00) = true := by decide

theorem test_xor :
    testStep (testBoot [0xAB, 0x00, 0x01] [(0, 0xCC), (1, 0xAA)])
      (fun t => t.reg 0 == 0x66 && t.reg 1 == 0xAA && t.pc == 0x03 && t.fl == 0x00) = true := by decide

theorem test_shl_loses_bit_7 :
    testStep (testBoot [0xAC, 0x00, 0x01] [(0, 0x81), (1, 0x01)])
      (fun t => t.reg 0 == 0x02 && t.reg 1 == 0x01 && t.pc == 0x03 && t.fl == 0x00) = true := by decide

theorem test_shl_by_255 :
    testStep (testBoot [0xAC, 0x00, 0x01] [(0, 0xFF), (1, 0xFF)])
      (fun t => t.reg 0 == 0x00 && t.reg 1 == 0xFF && t.pc == 0x03 && t.fl == 0x00) = true := by decide

theorem test_shr_logical :
    testStep (testBoot [0xAD, 0x00, 0x01] [(0, 0x80), (1, 0x07)])
      (fun t => t.reg 0 == 0x01 && t.reg 1 == 0x07 && t.pc == 0x03 && t.fl == 0x00) = true := by decide

theorem test_shr_by_width :
    testStep (testBoot [0xAD, 0x00, 0x01] [(0, 0xFF), (1, 0x08)])
      (fun t => t.reg 0 == 0x00 && t.reg 1 == 0x08 && t.pc == 0x03 && t.fl == 0x00) = true := by decide

theorem test_mod_by_zero :
    testStep (testBoot [0xA4, 0x00, 0x01] [(0, 0x05)])
      (fun t => t.reg 0 == 0x05 && t.status == .faulted .divisionByZero 0xA4 0x03) = true := by decide

theorem test_sub_same_register :
    testStep (testBoot [0xA1, 0x02, 0x02] [(2, 0x5A)])
      (fun t => t.reg 2 == 0x00) = true := by decide

theorem test_cmp_unsigned :
    testStep (testBoot [0xA7, 0x00, 0x01] [(0, 0x80), (1, 0x7F)])
      (fun t => t.fl == 0x02 && t.reg 0 == 0x80 && t.reg 1 == 0x7F) = true := by decide

theorem test_cmp_less :
    testStep (testBoot [0xA7, 0x00, 0x01] [(0, 0x00), (1, 0xFF)])
      (fun t => t.fl == 0x04) = true := by decide

theorem test_or_status_register :
    testStep (testBoot [0xAA, 0x06, 0x00] [(0, 0x02)])
      (fun t => t.reg 6 == 0x02) = true := by decide

/-! V2 -/

theorem test_inc_wraps :
    testStep (testBoot [0x65, 0x00] [(0, 0xFF)])
      (fun t => t.reg 0 == 0x00 && t.pc == 0x02) = true := by decide

theorem test_dec_wraps_keeps_flags :
    testStep ((testBoot [0x66, 0x00] [(0, 0x00)]).setFl 4)
      (fun t => t.reg 0 == 0xFF && t.fl == 0x04) = true := by decide

theorem test_not :
    testStep (testBoot [0x69, 0x00] [(0, 0xA5)])
      (fun t => t.reg 0 == 0x5A) = true := by decide

/-! V3 -/

theorem test_ldi_register_7 :
    testStep (testBoot [0x82, 0x07, 0xFF] [])
      (fun t => t.reg 7 == 0xFF && t.pc == 0x03) = true := by decide

theorem test_ld :
    testStep ((testBoot [0x83, 0x00, 0x01] [(1, 0x80)]).memWrite 0x80 0x0A)
      (fun t => t.reg 0 == 0x0A && t.reg 1 == 0x80) = true := by decide

theorem test_ld_same_register :
    testStep ((testBoot [0x83, 0x03, 0x03] [(3, 0x80)]).memWrite 0x80 0x0A)
      (fun t => t.reg 3 == 0x0A) = true := by decide

theorem test_st :
    testStep (testBoot [0x84, 0x00, 0x01] [(0, 0x80), (1, 0x5A)])
      (fun t => t.memRead 0x80 == 0x5A && t.reg 0 == 0x80 && t.reg 1 == 0x5A) = true := by decide

theorem test_st_vector_table :
    testStep (testBoot [0x84, 0x00, 0x01] [(0, 0xFF), (1, 0x40)])
      (fun t => t.memRead 0xFF == 0x40) = true := by decide

theorem test_push_wraps :
    testStep (testBoot [0x45, 0x00] [(7, 0x00), (0, 0x77)])
      (fun t => t.reg 7 == 0xFF && t.memRead 0xFF == 0x77) = true := by decide

theorem test_push_stack_pointer :
    testStep (testBoot [0x45, 0x07] [])
      (fun t => t.reg 7 == 0xF3 && t.memRead 0xF3 == 0xF4) = true := by decide

theorem test_pop_wraps :
    testStep ((testBoot [0x46, 0x00] [(7, 0xFF)]).memWrite 0xFF 0x77)
      (fun t => t.reg 0 == 0x77 && t.reg 7 == 0x00) = true := by decide

theorem test_pop_stack_pointer :
    testStep ((testBoot [0x46, 0x07] [(7, 0xF3)]).memWrite 0xF3 0x42)
      (fun t => t.reg 7 == 0x42) = true := by decide

/-! V4: placed at 0x10, `pc` preset -/

theorem test_jmp :
    testStep ((((testBoot [0x00] [(0, 0x40)]).memWrite 0x10 0x54).setPc 0x10).setFl 0x00)
      (fun t => t.pc == 0x40 && t.fl == 0x00) = true := by decide

theorem test_jeq_taken :
    testStep ((((testBoot [0x00] [(0, 0x40)]).memWrite 0x10 0x55).setPc 0x10).setFl 0x01)
      (fun t => t.pc == 0x40 && t.fl == 0x01) = true := by decide

theorem test_jeq_whole_value :
    testStep ((((testBoot [0x00] [(0, 0x40)]).memWrite 0x10 0x55).setPc 0x10).setFl 0x03)
      (fun t => t.pc == 0x12 && t.fl == 0x03) = true := by decide

theorem test_jne_before_compare :
    testStep ((((testBoot [0x00] [(0, 0x40)]).memWrite 0x10 0x56).setPc 0x10).setFl 0x00)
      (fun t => t.pc == 0x40 && t.fl == 0x00) = true := by decide

theorem test_jne_not_taken :
    testStep ((((testBoot [0x00] [(0, 0x40)]).memWrite 0x10 0x56).setPc 0x10).setFl 0x01)
      (fun t => t.pc == 0x12 && t.fl == 0x01) = true := by decide

theorem test_jgt_taken :
    testStep ((((testBoot [0x00] [(0, 0x40)]).memWrite 0x10 0x57).setPc 0x10).setFl 0x02)
      (fun t => t.pc == 0x40 && t.fl == 0x02) = true := by decide

theorem test_jgt_whole_value :
    testStep ((((testBoot [0x00] [(0, 0x40)]).memWrite 0x10 0x57).setPc 0x10).setFl 0x03)
      (fun t => t.pc == 0x12 && t.fl == 0x03) = true := by decide

theorem test_jlt_taken :
    testStep ((((testBoot [0x00] [(0, 0x40)]).memWrite 0x10 0x58).setPc 0x10).setFl 0x04)
      (fun t => t.pc == 0x40 && t.fl == 0x04) = true := by decide

theorem test_jlt_before_compare :
    testStep ((((testBoot [0x00] [(0, 0x40)]).memWrite 0x10 0x58).setPc 0x10).setFl 0x00)
      (fun t => t.pc == 0x12 && t.fl == 0x00) = true := by decide

theorem test_jle_not_taken :
    testStep ((((testBoot [0x00] [(0, 0x40)]).memWrite 0x10 0x59).setPc 0x10).setFl 0x02)
      (fun t => t.pc == 0x12 && t.fl == 0x02) = true := by decide

theorem test_jle_other_value :
    testStep ((((testBoot [0x00] [(0, 0x40)]).memWrite 0x10 0x59).setPc 0x10).setFl 0x80)
      (fun t => t.pc == 0x40 && t.fl == 0x80) = true := by decide

theorem test_jge_not_taken :
    testStep ((((testBoot [0x00] [(0, 0x40)]).memWrite 0x10 0x5A).setPc 0x10).setFl 0x04)
      (fun t => t.pc == 0x12 && t.fl == 0x04) = true := by decide

theorem test_jge_before_compare :
    testStep ((((testBoot [0x00] [(0, 0x40)]).memWrite 0x10 0x5A).setPc 0x10).setFl 0x00)
      (fun t => t.pc == 0x40 && t.fl == 0x00) = true := by decide

theorem test_call :
    testStep (((testBoot [0x00] [(1, 0x40)]).memWriteAll 0x10 [0x50, 0x01]).setPc 0x10)
      (fun t => t.memRead 0xF3 == 0x12 && t.reg 7 == 0xF3 && t.pc == 0x40) = true := by decide

theorem test_call_stack_pointer :
    testStep (((testBoot [0x00] []).memWriteAll 0x10 [0x50, 0x07]).setPc 0x10)
      (fun t => t.memRead 0xF3 == 0x12 && t.pc == 0xF3) = true := by decide

theorem test_ret :
    testStep ((testBoot [0x11] [(7, 0xF3)]).memWrite 0xF3 0x12)
      (fun t => t.pc == 0x12 && t.reg 7 == 0xF4) = true := by decide

theorem test_jeq_checks_operand_first :
    testStep (((testBoot [0x00] []).memWriteAll 0x10 [0x55, 0x09]).setPc 0x10)
      (fun t => t.status == .faulted (.registerIndexOutOfRange 0x09) 0x55 0x12) = true := by decide

/-! V5 -/

theorem test_zeroed_memory_faults :
    testStep (testBoot [0x00] [])
      (fun t => t.status == .faulted .unknownInstruction 0x00 0x01) = true := by decide

theorem test_four_byte_opcode_faults :
    testStep (testBoot [0xC5, 0x01, 0x02, 0x03] [])
      (fun t => t.status == .faulted .unknownInstruction 0xC5 0x04) = true := by decide

theorem test_bad_operand_before_zero_divisor :
    testStep (testBoot [0xA3, 0x09, 0x01] [])
      (fun t => t.status == .faulted (.registerIndexOutOfRange 0x09) 0xA3 0x03) = true := by decide

theorem test_fetch_wraps :
    testStep (((testBoot [0x00, 0x05] []).memWrite 0xFF 0x82).setPc 0xFF)
      (fun t => t.reg 0 == 0x05 && t.pc == 0x02) = true := by decide

/-! V6 -/

theorem test_hlt :
    testStep (testBoot [0x01] [])
      (fun t => t.status == .halted && t.pc == 0x01) = true := by decide

theorem test_prn :
    testStep (testBoot [0x47, 0x00] [(0, 0xFF)])
      (fun t => t.out == [.prn 255]) = true := by decide

theorem test_pra :
    testStep (testBoot [0x48, 0x00] [(0, 0x41)])
      (fun t => t.out == [.pra 65]) = true := by decide

theorem test_event_text : Event.text (.prn 255) = [50, 53, 53, 10] ∧ Event.text (.prn 0) = [48, 10] ∧
    Event.text (.prn 17) = [49, 55, 10] ∧ Event.text (.pra 65) = [65] := by decide

theorem test_iret :
    testStep ((testBoot [0x13] [(7, 0xEB)]).memWriteAll 0xEB [0x11, 0x22, 0x33, 0x44, 0x55, 0x66, 0x77, 0x03, 0x40])
      (fun t => t.reg 0 == 0x11 && t.reg 1 == 0x22 && t.reg 5 == 0x66 && t.reg 6 == 0x77 && t.fl == 0x03 && t.pc == 0x40 && t.reg 7 == 0xF4) = true := by decide

/-! V7 -/

/-- V7.1, cycle 1: the tick sets the bit after phase 1 found nothing pending. -/
theorem test_masked_request_and_tick :
    testStep { (testBoot [0x82, 0x00, 0x01, 0x01] [(5, 0x01), (6, 0x02)]) with ticks := .bit true (.bit false .silent) }
      (fun t => t.reg 6 == 0x03 && t.reg 0 == 0x01 && t.pc == 0x03 && t.reg 7 == 0xF4 && t.ticks == .bit false .silent) = true := by decide

/-- V7.3, cycle 1: line 1 before line 2, and the handler's first instruction in the same cycle. -/
theorem test_dispatch_lowest_line :
    testStep (((testBoot [0x82, 0x00, 0x01, 0x01] [(5, 0xFF), (6, 0x06)]).memWrite 0xF9 0x40).memWriteAll 0x40 [0x65, 0x00])
      (fun t => t.reg 6 == 0x04 && t.memRead 0xF3 == 0x00 && t.memRead 0xF1 == 0x04 && t.memRead 0xF0 == 0xFF && t.reg 7 == 0xEB && t.reg 0 == 0x01 && t.pc == 0x42) = true := by decide

/-- V7.3, cycle 2: nothing holds the second line off. -/
theorem test_nested_dispatch :
    testStep ((((testBoot [0x00] [(0, 0x01), (5, 0xFF), (6, 0x04), (7, 0xEB)]).memWrite 0xFA 0x50).memWrite 0x50 0x01).setPc 0x42)
      (fun t => t.status == .halted && t.pc == 0x51 && t.reg 7 == 0xE2 && t.reg 6 == 0x00 && t.memRead 0xEA == 0x42 && t.memRead 0xE8 == 0x00 && t.memRead 0xE7 == 0xFF && t.memRead 0xE2 == 0x01) = true := by decide

/-! ### The host's entries -/

theorem test_fetch_word_runs_first :
    testStep (State.reset.withFetchWord 24 0x090182) (fun t => t.reg 1 == 9 && t.pc == 3) = true ∧
    testStep (State.reset.withFetchWord 8 0x01) (fun t => t.status == .halted) = true := by decide

theorem test_load_bound : State.reset.load (List.replicate 256 1) =
      some (State.reset.memWriteAll 0 (List.replicate 256 1)) ∧ State.reset.load (List.replicate 257 1) = none :=
  ⟨if_pos (Nat.le_of_eq List.length_replicate), if_neg (by rw [List.length_replicate]; decide)⟩

/-! ### The open arguments -/

/-- A legal map other than the default one: MUL and DIV with each other's byte (R57 leaves both open). -/
def testMap : OpcodeMap := fun k => if k = .mul then 0xA3 else if k = .div then 0xA2 else defaultOpcodeMap k

/-- R57: a core with that map divides on 0xA2, and its fault record has that byte. -/
theorem test_other_opcode_map :
    testStep { (testBoot [0xA2, 0x00, 0x01] [(0, 0x11)]) with opcodes := testMap.table }
      (fun t => t.status == .faulted .divisionByZero 0xA2 0x03 && t.reg 0 == 0x11) = true := by decide

/-- R160: no law on the tick: after a known tick comes the free bit of a cycle, whatever it is. -/
theorem test_tick_free : (TickInput.bit true (.free 7)).head = true ∧
    (TickInput.bit true (.free 7)).tail.head = Config.freeTick 7 := ⟨rfl, rfl⟩

/-! ### Witnesses: the hypotheses of the statements, met together -/

theorem witness_DecodeOfEncodeIsTheInstruction : ∃ (m : OpcodeMap) (i : Instr), m.Legal ∧ i.wf = true :=
  ⟨defaultOpcodeMap, .add 7 0, defaultOpcodeMap_legal, by decide⟩

theorem witness_EncodeOfDecodeIsTheBytes : ∃ (m : OpcodeMap) (bytes : List Byte) (i : Instr) (rest : List Byte),
    decodeWith m bytes = .instr i rest := ⟨defaultOpcodeMap, [0x82, 0x07, 0xFF, 0x01], .ldi 7 255, [1], by decide⟩

/-- Both forms of the hypothesis: the machine right after construction, and a reset of a faulted core with memory written,
another opcode map and ticks to come. -/
theorem witness_ResetStateIsTheSources : (∃ s t : State, t = State.reset ∨ t = s.hostReset) ∧
    ∃ s t : State, t = s.hostReset ∧ s.memRead 0x10 = 0x55 ∧ s.status ≠ .running ∧ t.opcodes ≠ defaultOpcodeMap.table ∧
      t.ticks = .free 5 :=
  ⟨⟨State.reset, _, .inl rfl⟩,
    { (State.reset.memWrite 0x10 0x55).raise .divisionByZero 0xA3 with opcodes := testMap.table, ticks := .free 5 }, _, rfl,
    by decide⟩

theorem witness_InstructionLengthIsOnePlusOpcodeBits : ∃ (m : OpcodeMap) (i : Instr), m.Legal ∧ i = .hlt :=
  ⟨defaultOpcodeMap, .hlt, defaultOpcodeMap_legal, rfl⟩

/-- Every clause at the boundary: an unknown opcode byte with no operand byte and with three, and a format of each kind with
its register operands at 7 and at 8. -/
theorem witness_DecoderClassifiesEveryByteSequence :
    defaultOpcodeMap.Legal ∧ (∀ k, defaultOpcodeMap k ≠ 0x00) ∧ (∀ k, defaultOpcodeMap k ≠ 0xFF) ∧
    (defaultOpcodeMap .hlt = 0x01 ∧ Mnemonic.hlt.format = .f0) ∧ (defaultOpcodeMap .push = 0x45 ∧ Mnemonic.push.format = .f1) ∧
    (defaultOpcodeMap .add = 0xA0 ∧ Mnemonic.add.format = .f2rr) ∧ (defaultOpcodeMap .ldi = 0x82 ∧ Mnemonic.ldi.format = .f2ri) ∧
    ¬ 7 < (7 : Byte).toNat ∧ 7 < (8 : Byte).toNat :=
  ⟨defaultOpcodeMap_legal, by intro k; cases k <;> decide, by intro k; cases k <;> decide, by decide⟩

/-- Both signs of the divisor's test, at the boundary 0 and 1. -/
theorem witness_ArithmeticIsUnsignedModulo256 :
    (∃ (a b : RegId) (s : State) (x y : Nat), (s.reg a).toNat = x ∧ (s.reg b).toNat = y ∧ y ≠ 0) ∧
    ∃ (a b : RegId) (s : State) (x y : Nat), (s.reg a).toNat = x ∧ (s.reg b).toNat = y ∧ y = 0 :=
  ⟨⟨0, 1, testBoot [] [(0, 5), (1, 1)], 5, 1, by decide⟩, ⟨7, 0, State.reset, 0xF4, 0, by decide⟩⟩

theorem witness_QuotientAndRemainderMakeUpTheDividend : ∃ (b : RegId) (s : State), s.reg b ≠ 0 :=
  ⟨7, State.reset, by decide⟩

theorem witness_DivisionByZeroStopsTheCore : ∃ (b : RegId) (s : State), s.reg b = 0 := ⟨0, State.reset, by decide⟩

/-- Both clauses of POP: a register that is not the stack pointer, and the stack pointer. -/
theorem witness_PopInstructionLoadsTheTop : ∃ a b : RegId, a ≠ 7 ∧ ¬ b ≠ 7 := ⟨6, 7, by decide⟩

theorem witness_PushThenPopRestoresValueAndPointer : ∃ b : RegId, b ≠ 7 := ⟨6, by decide⟩

theorem witness_ReturnUndoesCall : ∃ (a : RegId) (s t u : State), exec (.call (regByte a)) s = .next t ∧
    u.reg 7 = t.reg 7 ∧ u.memRead (u.reg 7) = t.memRead (t.reg 7) :=
  ⟨1, State.reset, _, _, rfl, rfl, rfl⟩

/-- The lowest line alone, and the highest line with no lower one. -/
theorem witness_LowestPendingLineIsDispatched :
    (∃ s : State, s.pending.getLsbD (0 : Line).val = true ∧ ∀ j : Line, j < 0 → s.pending.getLsbD j = false) ∧
    ∃ s : State, s.pending.getLsbD (7 : Line).val = true ∧ ∀ j : Line, j < 7 → s.pending.getLsbD j = false :=
  ⟨⟨testBoot [] [(5, 0xFF), (6, 0xFF)], by decide⟩, ⟨testBoot [] [(5, 0xFF), (6, 0x80)], by decide⟩⟩

theorem witness_NothingPendingNothingDispatched : ∃ s : State, s.reg 6 = 2 ∧
    ∀ i : Line, ¬ ((s.reg 5).getLsbD i = true ∧ (s.reg 6).getLsbD i = true) :=
  ⟨testBoot [] [(5, 0xFD), (6, 0x02)], by decide⟩

/-- Each form of the coming ticks: a known tick, a free one, silence. -/
theorem witness_TickSetsTheTimerBitAfterTheInterruptCheck : (∃ s : State, s.ticks = .bit true .silent) ∧
    (∃ s : State, s.ticks = .free 7) ∧ ∃ s : State, s.ticks = .silent :=
  ⟨⟨{ State.reset with ticks := .bit true .silent }, rfl⟩, ⟨{ State.reset with ticks := .free 7 }, rfl⟩, State.reset, rfl⟩

theorem witness_InterruptReturnRestoresTheInterruptedProgram : ∃ (s u : State) (i : Line),
    u.reg 7 = (s.dispatch i).reg 7 ∧ ∀ k : Nat, k < 9 → u.memRead (s.reg 7 - 9 + BitVec.ofNat 8 k) =
      (s.dispatch i).memRead (s.reg 7 - 9 + BitVec.ofNat 8 k) :=
  ⟨testBoot [] [(5, 0x02), (6, 0x02)], ((testBoot [] [(5, 0x02), (6, 0x02)]).dispatch 1).setReg 3 0x55, 1,
    by decide, fun k _ => State.setReg_memRead _ 3 0x55 _⟩

theorem witness_BadRegisterOperandStopsBeforeAnyEffect :
    (Instr.add 9 10).badOperand? = some 9 ∧ (Instr.div 0 8).badOperand? = some 8 ∧
    (Instr.jeq 255).badOperand? = some 255 := by decide

theorem witness_FaultLeavesOnlyPhasesOneAndTwoAndThePc : ∃ (s t : State) (c : FaultCause) (op p : Byte),
    s.isRunning ∧ step s = .next t ∧ t.status = .faulted c op p :=
  ⟨State.reset, _, _, _, _, rfl, rfl, rfl⟩

theorem witness_StoppedCoreStaysAsItIs : ∃ s : State, s.status ≠ .running := ⟨State.reset.halt, by decide⟩

theorem witness_EveryCycleEndsInOneOfThreeWays : ∃ s : State, s.isRunning := ⟨State.reset, rfl⟩

/-- A fetch of the most and of the fewest operand bytes. -/
theorem witness_FetchTakesTheOpcodeAndItsOperandBytes :
    (∃ s : State, 3 = (s.memRead s.pc).toNat / 64) ∧ ∃ s : State, 0 = (s.memRead s.pc).toNat / 64 :=
  ⟨⟨testBoot [0xFF] [], by decide⟩, ⟨State.reset, by decide⟩⟩

theorem witness_StepRunsTheDecodedInstruction : ∃ (s : State) (i : Instr) (rest : List Byte),
    s.isRunning ∧ decodeWith s.opcodeMap s.fetchState.bytesAtPc = .instr i rest :=
  ⟨testBoot [0xA0, 0x00, 0x01] [], .add 0 1, [0], by decide⟩

/-- Both clauses, with an opcode byte of the longest claim and with an operand at 8. -/
theorem witness_StepRaisesTheDecodersFault :
    (∃ s : State, s.isRunning ∧ (0xFF : Byte) = s.fetchState.memRead s.fetchState.pc ∧
      decodeWith s.opcodeMap s.fetchState.bytesAtPc = .unknownInstruction 0xFF) ∧
    ∃ s : State, s.isRunning ∧ (0x45 : Byte) = s.fetchState.memRead s.fetchState.pc ∧
      decodeWith s.opcodeMap s.fetchState.bytesAtPc = .registerIndexOutOfRange 0x45 0x08 :=
  ⟨⟨testBoot [0xFF] [], by decide⟩, ⟨testBoot [0x45, 0x08] [], by decide⟩⟩

theorem witness_EveryStepKeepsTheInvariant : ∃ s t : State, s.Inv ∧ step s = .next t :=
  ⟨State.reset, _, ⟨State.reset_opcodes_legal, rfl, fun c op p h => by cases h⟩, rfl⟩

theorem witness_InvariantHoldsWhenBooted : ∃ s t : State, Booted s ∧ s.load [0x01] = some t ∧ Booted t :=
  ⟨_, _, .reset State.reset.halt State.reset_opcodes_legal, rfl,
    .load [0x01] (.reset State.reset.halt State.reset_opcodes_legal) rfl⟩

/-- Both cases: a running core with free ticks, and a stopped one. -/
theorem witness_StepKeepsTheOpcodeMapAndTakesOneTick : (∃ s t : State, s.isRunning ∧ step s = .next t) ∧
    ∃ s t : State, s.status ≠ .running ∧ step s = .next t :=
  ⟨⟨{ State.reset with ticks := .bit true (.free 0) }, _, rfl, rfl⟩, ⟨State.reset.halt, _, by decide, rfl⟩⟩

theorem witness_FlagStaysDefinedWithoutInterruptReturn : ∃ s t : State, FlDefined s ∧
    s.fetchState.memRead s.fetchState.pc ≠ s.opcodeMap .iret ∧ step s = .next t :=
  ⟨State.reset, _, .inl rfl, by decide, rfl⟩

theorem witness_OnlyCompareAndInterruptReturnWriteTheFlags : ∃ (i : Instr) (s t : State), exec i s = .next t ∧
    i.mnemonic ≠ .cmp ∧ i.mnemonic ≠ .iret := ⟨.ret, State.reset, _, rfl, by decide⟩

/-- Every clause: a store whose address register is 7, a push, a call, an instruction that stores nothing, and a store, a
push and a call with an operand at 8. -/
theorem witness_OnlyStorePushAndCallWriteMemory : ∃ (s t u v w : State), exec (.st 7 0) s = .next t ∧
    exec (.push 0) s = .next u ∧ exec (.call 7) s = .next v ∧ exec .hlt s = .next w ∧ (7 : Byte) = regByte 7 ∧
    (∀ i ∈ [Instr.st 0 8, .push 8, .call 8], i.wf = false ∧ ∃ t, exec i s = .next t) :=
  ⟨State.reset, _, _, _, _, rfl, rfl, rfl, rfl, rfl, by
    intro i hi
    fin_cases hi <;> exact ⟨rfl, _, rfl⟩⟩

theorem witness_OnlyControlFlowWritesThePcAndOnlyPrintsTheOutput : ∃ (i : Instr) (s t : State), exec i s = .next t ∧
    i.mnemonic ∉ [.jmp, .jeq, .jne, .jgt, .jlt, .jle, .jge, .call, .ret, .iret] ∧ i.mnemonic ∉ [.prn, .pra] :=
  ⟨.add 0 0, State.reset, _, rfl, by decide⟩

theorem witness_RegisterInstructionsWriteOneRegister : ∃ (s t : State) (i : Instr),
    i = .div 0 7 ∧ exec i s = .next t ∧ regByte 1 ≠ 0 := ⟨State.reset, _, _, rfl, rfl, by decide⟩

/-- Every clause; POP with an operand in range and with one at 8. -/
theorem witness_OtherInstructionsWriteNoOtherRegister : ∃ (s t u v w x : State), exec (.pop 8) s = .next x ∧ exec (.cmp 0 7) s = .next t ∧
    exec (.push 0) s = .next u ∧ exec (.pop 0) s = .next v ∧ regByte 6 ≠ 0 ∧ (6 : RegId) ≠ 7 ∧
    exec (.prn 0) s = .next w ∧ Instr.prn 0 ≠ .hlt :=
  ⟨State.reset, _, _, _, _, _, rfl, rfl, rfl, rfl, by decide, by decide, rfl, by decide⟩

/-- The bound of LOAD from both sides. -/
theorem witness_LoadPlacesTheImageAtZero : (∃ image : List Byte, 256 < image.length) ∧
    ∃ image : List Byte, image.length ≤ 256 ∧ image.length = 256 :=
  ⟨⟨List.replicate 257 0, by rw [List.length_replicate]; decide⟩,
    ⟨List.replicate 256 0, Nat.le_of_eq List.length_replicate, List.length_replicate⟩⟩

theorem witness_FirstCycleFetchesAtAddressZero : ∃ s : State, Booted s :=
  ⟨_, .reset { State.reset with ticks := .free 5 } State.reset_opcodes_legal⟩
end

section
/-! PROOFS. Memory and stack primitives (spec/20_memory.md): the rules of a memory write and of a pop in the words of
the statements, and the statements about them. -/

namespace Sys2Proof.Machine

open Sys2Proof

/-- The fetch reads the same memory as a load, at `pc` (R31, R32). -/
theorem State.fetchedByte_eq (s : State) : s.fetchedByte = s.memRead s.pc := rfl

/-- The byte read back from the cell just written (R32). -/
theorem State.memWrite_memRead_self (s : State) (addr v : Byte) : (s.memWrite addr v).memRead addr = v := by
  rw [State.memWrite_memRead, if_pos rfl]

theorem State.memWrite_sameMemoryBut (s : State) (addr v : Byte) : SameMemoryBut [addr] s (s.memWrite addr v) :=
  fun x hx => by
    have hne : x ≠ addr := List.ne_of_not_mem_cons hx
    rw [State.memWrite_memRead, if_neg hne]

theorem State.memWrite_sameRegs (s : State) (addr v : Byte) : SameRegsBut [] s (s.memWrite addr v) :=
  fun r _ => State.memWrite_reg s addr v r

theorem State.memWrite_sameOutside (s : State) (addr v : Byte) : SameOutside s (s.memWrite addr v) :=
  ⟨State.memWrite_out s addr v, State.memWrite_status s addr v, State.memWrite_ticks s addr v,
    State.memWrite_opcodes s addr v⟩

/-- A write reaches the fetch: with `pc` at the cell written, the byte written is the one fetched (R32). -/
theorem State.memWrite_fetchedByte (s : State) (addr v : Byte) :
    ((s.memWrite addr v).setPc addr).fetchedByte = v := by
  rw [State.fetchedByte_eq, State.setPc_pc, State.setPc_memRead, State.memWrite_memRead_self]

theorem State.drop_reg_sp (s : State) : s.drop.reg Config.spReg = s.reg Config.spReg + 1 := by
  rw [State.drop_reg, if_pos rfl]

theorem State.drop_sameRegsBut (s : State) : SameRegsBut [Config.spReg] s s.drop :=
  fun r hr => by
    have hne : r ≠ Config.spReg := List.ne_of_not_mem_cons hr
    rw [State.drop_reg, if_neg hne]

theorem State.drop_sameMemory (s : State) : SameMemory s s.drop := State.drop_memRead s

theorem State.drop_sameOutside (s : State) : SameOutside s s.drop :=
  ⟨State.drop_out s, State.drop_status s, State.drop_ticks s, State.drop_opcodes s⟩

/-- Settles O8: the read after a write of any memory list, which the fetch shares (R32). -/
theorem memoryWriteSetsOneCell : Obligations.MemoryWriteSetsOneCell := fun s addr v =>
  ⟨s.memWrite_memRead_self addr v, s.memWrite_sameMemoryBut addr v, s.memWrite_fetchedByte addr v,
    s.memWrite_sameRegs addr v, s.memWrite_pc addr v, s.memWrite_fl addr v, s.memWrite_sameOutside addr v⟩

/-- Settles O10: the top is read through register 7, and the pop writes that register only (R35). -/
theorem popReadsThenIncrements : Obligations.PopReadsThenIncrements := fun s =>
  ⟨s.top_eq, s.drop_reg_sp, s.drop_sameRegsBut, s.drop_sameMemory, s.drop_pc, s.drop_fl, s.drop_sameOutside⟩

end Sys2Proof.Machine
end

section
/-! PROOFS. How a cycle stops the core (spec/40_cycle.md R79; spec/60_exceptions.md R153): what an instruction can do to
the run status, and what a faulted step has left alone. -/

namespace Sys2Proof.Machine

open Sys2Proof

/-- An instruction raises a fault, or is HLT and halts the core, or leaves the run status as it is (R20). -/
theorem ExecEffect.status_cases {s t : State} {i : Instr} (h : ExecEffect s i t) :
    (∃ c op, t = s.raise c op) ∨ (i = .hlt ∧ t = s.halt) ∨ t.status = s.status := by
  cases h with
  | fault _ => exact .inl ⟨_, _, rfl⟩
  | hlt => exact .inr (.inl ⟨rfl, rfl⟩)
  | register r v _ => exact .inr (.inr (State.setReg_status s r v))
  | compare x y => exact .inr (.inr (State.setFl_status s _))
  | store ra rb _ => exact .inr (.inr (State.memWrite_status s _ _))
  | push r => exact .inr (.inr (State.push_status s _))
  | pop r _ => exact .inr (.inr (State.popReg_status s r))
  | jump target _ => exact .inr (.inr (State.setPc_status s target))
  | noJump _ => exact .inr (.inr rfl)
  | call r => exact .inr (.inr (by simp))
  | ret => exact .inr (.inr (by simp))
  | prn v => exact .inr (.inr (State.emit_status s _))
  | pra v => exact .inr (.inr (State.emit_status s _))
  | iret => exact .inr (.inr (State.returnFromInterrupt_status s))

/-- A running core that an instruction leaves faulted has only had the fault raised. -/
theorem ExecEffect.eq_raise_of_faulted {s t : State} {i : Instr} {c : FaultCause} {op p : Byte}
    (h : ExecEffect s i t) (hs : s.isRunning) (ht : t.status = .faulted c op p) : ∃ c op, t = s.raise c op := by
  rcases h.status_cases with hr | ⟨-, rfl⟩ | hk
  · exact hr
  · rw [State.halt_status] at ht
    cases ht
  · rw [hk, hs] at ht
    cases ht

/-- The first three phases do not touch the run status (R70 to R75). -/
theorem State.afterFetch_fetchState_status (s : State) : s.fetchState.afterFetch.status = s.status := by
  rw [State.afterFetch_eq]
  simp [State.fetchState, State.atFetch]

/-- Whoever raises it, the lookup or the instruction, a fault is raised on the state the fetch left (R79). -/
theorem step_faulted_eq_raise {s t : State} {c : FaultCause} {op p : Byte} (hs : s.isRunning)
    (h : step s = .next t) (ht : t.status = .faulted c op p) :
    ∃ c op, t = s.fetchState.afterFetch.raise c op := by
  rcases step_cases hs h with ⟨i, -, he⟩ | ⟨c', -, hraise⟩
  · have hrun : s.fetchState.afterFetch.isRunning := s.afterFetch_fetchState_status.trans hs
    exact he.eq_raise_of_faulted hrun ht
  · exact ⟨c', _, hraise⟩

/-- The fetch moves `pc` only and raising a fault sets the run status only, so together they leave every other field. -/
theorem State.raise_afterFetch_frame (s : State) (c : FaultCause) (op : Byte) :
    s.afterFetch.raise c op =
      { s with pc := s.afterFetch.pc, status := (s.afterFetch.raise c op).status } := by
  rw [State.afterFetch_eq]
  rfl

/-- Settles O34: the faulted state is the fetched state with the fault raised on it (R79). -/
theorem faultLeavesOnlyPhasesOneAndTwoAndThePc : Obligations.FaultLeavesOnlyPhasesOneAndTwoAndThePc := by
  intro s t c op p hs h ht
  obtain ⟨c', op', rfl⟩ := step_faulted_eq_raise hs h ht
  exact ⟨s.fetchState.raise_afterFetch_frame c' op', State.raise_pc _ c' op'⟩

end Sys2Proof.Machine
end

section
/-! PROOFS. The arithmetic of the ALU (spec/41_alu.md R90 to R105): each form on registers in range, with its result named
by a natural number, and the number that each operation of R105 gives. -/

namespace Sys2Proof.Machine

open Sys2Proof

/-! ### The forms of R104 on registers in range -/

theorem aluBinary_regByte (m : Mnemonic) (f : Byte → Byte → Byte) (a b : RegId) (s : State) :
    aluBinary m f (regByte a) (regByte b) s = .next (s.setReg a (f (s.reg a) (s.reg b))) :=
  withRegs_regByte m a b s _

theorem aluUnary_regByte (m : Mnemonic) (f : Byte → Byte) (a : RegId) (s : State) :
    aluUnary m f (regByte a) s = .next (s.setReg a (f (s.reg a))) :=
  withReg_regByte m a s _

theorem aluDivide_regByte_of_eq_zero (m : Mnemonic) (f : Byte → Byte → Byte) (a : RegId) {b : RegId} {s : State}
    (h : s.reg b = 0) :
    aluDivide m f (regByte a) (regByte b) s = .next (s.raise .divisionByZero (s.opcodeMap m)) :=
  (withRegs_regByte m a b s _).trans (if_pos h)

theorem aluDivide_regByte_of_ne_zero (m : Mnemonic) (f : Byte → Byte → Byte) (a : RegId) {b : RegId} {s : State}
    (h : s.reg b ≠ 0) :
    aluDivide m f (regByte a) (regByte b) s = .next (s.setReg a (f (s.reg a) (s.reg b))) :=
  (withRegs_regByte m a b s _).trans (if_neg h)

theorem execCmp_regByte (a b : RegId) (s : State) :
    execCmp (regByte a) (regByte b) s = .next (s.setFl (compareFlags (s.reg a) (s.reg b))) :=
  withRegs_regByte .cmp a b s _

/-- AND, OR and XOR on registers in range write one byte to the first register. -/
theorem exec_logic_eq_setReg (a b : RegId) (s : State) :
    ∀ i ∈ [Instr.and (regByte a) (regByte b), .or (regByte a) (regByte b), .xor (regByte a) (regByte b)],
      ∃ v : Byte, exec i s = .next (s.setReg a v) := by
  simp only [List.forall_mem_cons]
  exact ⟨⟨_, aluBinary_regByte .and _ a b s⟩, ⟨_, aluBinary_regByte .or _ a b s⟩, ⟨_, aluBinary_regByte .xor _ a b s⟩,
    List.forall_mem_nil _⟩

/-! ### A register write, its byte given by its number -/

/-- To write a byte is to write the byte of its number. -/
theorem State.setReg_eq_ofNat (s : State) (r : RegId) {v : Byte} {n : Nat} (h : v.toNat = n) :
    s.setReg r v = s.setReg r (BitVec.ofNat 8 n) := by
  rw [← h, BitVec.ofNat_toNat, BitVec.setWidth_eq]

theorem aluBinary_eq_setReg_ofNat (m : Mnemonic) (f : Byte → Byte → Byte) {a b : RegId} {s : State} {n : Nat}
    (h : (f (s.reg a) (s.reg b)).toNat = n) :
    aluBinary m f (regByte a) (regByte b) s = .next (s.setReg a (BitVec.ofNat 8 n)) := by
  rw [aluBinary_regByte, State.setReg_eq_ofNat s a h]

theorem aluUnary_eq_setReg_ofNat (m : Mnemonic) (f : Byte → Byte) {a : RegId} {s : State} {n : Nat}
    (h : (f (s.reg a)).toNat = n) :
    aluUnary m f (regByte a) s = .next (s.setReg a (BitVec.ofNat 8 n)) := by
  rw [aluUnary_regByte, State.setReg_eq_ofNat s a h]

theorem aluDivide_eq_setReg_ofNat (m : Mnemonic) (f : Byte → Byte → Byte) {a b : RegId} {s : State} {n : Nat}
    (h0 : (s.reg b).toNat ≠ 0) (h : (f (s.reg a) (s.reg b)).toNat = n) :
    aluDivide m f (regByte a) (regByte b) s = .next (s.setReg a (BitVec.ofNat 8 n)) := by
  have hne : s.reg b ≠ 0 := fun hb => h0 (by rw [hb]; rfl)
  rw [aluDivide_regByte_of_ne_zero m f a hne, State.setReg_eq_ofNat s a h]

/-- A zero divisor changes the run status only (R93, R94, R153). -/
theorem aluDivide_of_toNat_eq_zero (m : Mnemonic) (f : Byte → Byte → Byte) (a : RegId) {b : RegId} {s : State}
    (h : (s.reg b).toNat = 0) : ∃ op p, aluDivide m f (regByte a) (regByte b) s =
      .next { s with status := .faulted .divisionByZero op p } :=
  ⟨_, _, aluDivide_regByte_of_eq_zero m f a (BitVec.eq_of_toNat_eq h)⟩

/-! ### The results of R105 as numbers -/

/-- The byte difference is the integer difference modulo 256; the library states it with a natural subtraction. -/
theorem toNat_sub_eq_emod (x y : Byte) : (x - y).toNat = (((x.toNat : Int) - y.toNat) % 256).toNat := by
  have hx := x.isLt
  have hy := y.isLt
  rw [BitVec.toNat_sub]
  omega

/-- A shift by the whole amount, 8 and more included, multiplies by its power of two (R102). -/
theorem toNat_shiftLeft_eq_mul_pow (x y : Byte) : (shiftLeft x y).toNat = x.toNat * 2 ^ y.toNat % 256 := by
  rw [shiftLeft, BitVec.toNat_shiftLeft, Nat.shiftLeft_eq]

/-- A shift by the whole amount, 8 and more included, divides by its power of two (R103). -/
theorem toNat_shiftRight_eq_div_pow (x y : Byte) : (shiftRight x y).toNat = x.toNat / 2 ^ y.toNat := by
  rw [shiftRight, BitVec.toNat_ushiftRight, Nat.shiftRight_eq_div_pow]

/-- The remainder is what the floor quotient leaves (R94). -/
theorem toNat_umod_eq_sub_mul_div (x y : Byte) : (x % y).toNat = x.toNat - y.toNat * (x.toNat / y.toNat) := by
  rw [BitVec.toNat_umod, Nat.mod_eq_sub_mul_div]

/-! ### The statement -/

/-- Settles O11: the form of each instruction, with the number its operation gives (R105). -/
theorem arithmeticIsUnsignedModulo256 : Obligations.ArithmeticIsUnsignedModulo256 := by
  rintro a b s _ _ rfl rfl
  refine ⟨?add, ?sub, ?mul, ?inc, ?dec, ?shl, ?shr, ?div, ?mod, exec_logic_eq_setReg a b s, ?div0, ?mod0, ?cmp⟩
  case add => exact aluBinary_eq_setReg_ofNat .add _ (BitVec.toNat_add _ _)
  case sub => exact aluBinary_eq_setReg_ofNat .sub _ (toNat_sub_eq_emod _ _)
  case mul => exact aluBinary_eq_setReg_ofNat .mul _ (BitVec.toNat_mul _ _)
  case inc => exact aluUnary_eq_setReg_ofNat .inc (· + 1) (BitVec.toNat_add _ 1)
  case dec => exact aluUnary_eq_setReg_ofNat .dec (· - 1) (toNat_sub_eq_emod _ 1)
  case shl => exact aluBinary_eq_setReg_ofNat .shl _ (toNat_shiftLeft_eq_mul_pow _ _)
  case shr => exact aluBinary_eq_setReg_ofNat .shr _ (toNat_shiftRight_eq_div_pow _ _)
  case div => exact fun h => aluDivide_eq_setReg_ofNat .div _ h BitVec.toNat_udiv
  case mod => exact fun h => aluDivide_eq_setReg_ofNat .mod _ h (toNat_umod_eq_sub_mul_div _ _)
  case div0 => exact aluDivide_of_toNat_eq_zero .div _ a
  case mod0 => exact aluDivide_of_toNat_eq_zero .mod _ a
  case cmp => exact execCmp_regByte a b s

end Sys2Proof.Machine
end

section
/-! PROOFS. Taking an interrupt (spec/60_exceptions.md R162 to R165): which line phase 1 takes, and what the dispatch of
a line does to the status bits, the other registers and the nine cells of the frame. -/

namespace Sys2Proof.Machine

open Sys2Proof

/-! ### The line taken -/

/-- The line taken is the least one whose bit is set (R163). -/
theorem lowestLine?_eq_some_iff {p : Byte} {i : Line} :
    lowestLine? p = some i ↔ p.getLsbD i = true ∧ ∀ j : Line, j < i → p.getLsbD j = false := by
  have hfind : lowestLine? p = Fin.find? fun j : Line => p.getLsbD j := Fin.find?_eq_find?_finRange.symm
  rw [hfind, Fin.find?_eq_some_iff]

theorem State.interruptCheck_of_lowestLine? {s : State} {i : Line} (h : lowestLine? s.pending = some i) :
    s.interruptCheck = s.dispatch i := by
  rw [State.interruptCheck, h]

/-! ### The status bits -/

theorem lineBit_getLsbD (i : Line) (j : Nat) : (lineBit i).getLsbD j = decide (j = i.val) := by
  have htwo : lineBit i = BitVec.twoPow 8 i.val := rfl
  rw [htwo, BitVec.getLsbD_twoPow, decide_eq_true i.isLt, Bool.true_and, Bool.decide_congr eq_comm]

/-- Clearing a line's bit leaves every other bit as it is (R165). -/
theorem and_not_lineBit_getLsbD (x : Byte) (i : Line) (j : Nat) :
    (x &&& ~~~lineBit i).getLsbD j = (x.getLsbD j && decide (j ≠ i.val)) := by
  rw [BitVec.getLsbD_and, BitVec.getLsbD_not, lineBit_getLsbD, decide_not]
  by_cases hj : j < 8
  · rw [decide_eq_true hj, Bool.true_and]
  · rw [BitVec.getLsbD_of_ge x j (Nat.le_of_not_lt hj), Bool.false_and, Bool.false_and]

theorem State.dispatch_isReg_getLsbD (s : State) (i : Line) (j : Nat) :
    ((s.dispatch i).reg Config.isReg).getLsbD j = ((s.reg Config.isReg).getLsbD j && decide (j ≠ i.val)) := by
  have hreg : (s.dispatch i).reg Config.isReg = s.reg Config.isReg &&& ~~~lineBit i := s.dispatch_reg i Config.isReg
  rw [hreg, and_not_lineBit_getLsbD]

/-- The lines not taken stay pending, or not, as they were (R163). -/
theorem State.dispatch_pending_getLsbD_of_ne (s : State) {i j : Line} (h : j ≠ i) :
    (s.dispatch i).pending.getLsbD j = s.pending.getLsbD j := by
  have hmask : (s.dispatch i).reg Config.imReg = s.reg Config.imReg := s.dispatch_reg i Config.imReg
  rw [State.pending, State.pending, BitVec.getLsbD_and, BitVec.getLsbD_and, hmask, State.dispatch_isReg_getLsbD,
    decide_eq_true (Fin.val_ne_of_ne h), Bool.and_true]

/-! ### The frame -/

theorem State.dispatch_sameRegsBut (s : State) (i : Line) :
    SameRegsBut [Config.isReg, Config.spReg] s (s.dispatch i) := fun r hr => by
  obtain ⟨his, hsp⟩ : r ≠ Config.isReg ∧ r ≠ Config.spReg := by simpa using hr
  rw [State.dispatch_reg, if_neg hsp, if_neg his]

theorem State.dispatch_sameOutside (s : State) (i : Line) : SameOutside s (s.dispatch i) :=
  ⟨s.dispatch_out i, s.dispatch_status i, s.dispatch_ticks i, s.dispatch_opcodes i⟩

/-- The frame counted from the old stack pointer: `c` below it stands the byte pushed as the `c`-th (R165). -/
theorem State.dispatch_memRead_pushed (s : State) (i : Line) {c : Byte} (h : 1 ≤ c ∧ c ≤ 9) :
    (s.dispatch i).memRead (s.reg 7 - c) = (dispatchFrame s i).getD (9 - c).toNat 0 := by
  have hoffset : s.reg 7 - c - (s.reg 7 - 9) = 9 - c := by bv_omega
  have hframe : (9 - c).toNat < 9 := by bv_omega
  rw [State.dispatch_memRead, hoffset, if_pos hframe]

/-- The dispatch writes the nine cells below the old stack pointer only (R165). -/
theorem State.dispatch_memRead_of_forall_ne (s : State) (i : Line) {x : Byte}
    (h : ∀ c : Byte, 1 ≤ c ∧ c ≤ 9 → x ≠ s.reg 7 - c) : (s.dispatch i).memRead x = s.memRead x := by
  have hframe : ¬ (x - (s.reg 7 - 9)).toNat < 9 := fun hlt =>
    h (s.reg 7 - x) (by bv_omega) (by bv_omega)
  rw [State.dispatch_memRead, if_neg hframe]

theorem State.dispatch_sameMemoryBut (s : State) (i : Line) :
    SameMemoryBut [s.reg 7 - 1, s.reg 7 - 2, s.reg 7 - 3, s.reg 7 - 4, s.reg 7 - 5, s.reg 7 - 6, s.reg 7 - 7,
      s.reg 7 - 8, s.reg 7 - 9] s (s.dispatch i) := fun x hx => by
  refine s.dispatch_memRead_of_forall_ne i fun c hc hxc => hx ?_
  have hcases : c = 1 ∨ c = 2 ∨ c = 3 ∨ c = 4 ∨ c = 5 ∨ c = 6 ∨ c = 7 ∨ c = 8 ∨ c = 9 := by bv_omega
  rw [hxc]
  rcases hcases with rfl | rfl | rfl | rfl | rfl | rfl | rfl | rfl | rfl <;> simp

/-! ### The statement -/

/-- Settles O29: phase 1 is the dispatch of that line, and the dispatch does to each field what R165 says. -/
theorem lowestPendingLineIsDispatched : Obligations.LowestPendingLineIsDispatched := by
  intro s i hi hlow
  have hpushed {c : Byte} (h : 1 ≤ c ∧ c ≤ 9) := s.dispatch_memRead_pushed i h
  refine ⟨s.dispatch i, (State.interruptCheck_of_lowestLine? (lowestLine?_eq_some_iff.mpr ⟨hi, hlow⟩)).symm,
    s.dispatch_isReg_getLsbD i, s.dispatch_sameRegsBut i, s.dispatch_reg i 7, s.dispatch_fl i, s.dispatch_sameOutside i,
    hpushed (by decide), hpushed (by decide), ?status, hpushed (by decide), hpushed (by decide), hpushed (by decide),
    hpushed (by decide), hpushed (by decide), hpushed (by decide), s.dispatch_sameMemoryBut i, s.dispatch_pc i,
    fun j hj => s.dispatch_pending_getLsbD_of_ne hj⟩
  case status => exact (hpushed (by decide)).trans (s.dispatch_reg i 6).symm

end Sys2Proof.Machine
end

section
/-! PROOFS. The encoding (spec/30_encoding.md R50 to R60): the decoder on an encoded instruction, its answer on any bytes,
and the length an opcode byte tells. -/

namespace Sys2Proof

/-! ### Lengths -/

theorem operandCount_eq_div (op : Byte) : operandCount op = op.toNat / 64 := by
  have hlt := op.isLt
  rw [operandCount, BitVec.extractLsb_toNat, Nat.shiftRight_eq_div_pow]
  omega

theorem Format.operandBytes_le_two (f : Format) : f.operandBytes ≤ 2 := by
  cases f <;> decide

/-- Under a legal map the opcode byte claims as many operand bytes as the instruction has (R57 constraint (c)). -/
theorem OpcodeMap.Legal.operandCount_mnemonic {m : OpcodeMap} (hm : m.Legal) (i : Instr) :
    operandCount (m i.mnemonic) = i.operands.length := by
  rw [hm.count, Instr.operands_length]

theorem encodeWith_length (m : OpcodeMap) (i : Instr) : (encodeWith m i).length = i.operands.length + 1 :=
  List.length_cons

/-! ### Operands -/

theorem Instr.instr?_operands (i : Instr) : i.mnemonic.instr? i.operands = some i := by
  cases i <;> rfl

/-- Every operand byte but LDI's immediate is a register index (R51, R54). -/
theorem Instr.registerOperands_eq_operands {i : Instr} (h : i.mnemonic.format ≠ .f2ri) :
    i.registerOperands = i.operands := by
  cases i with
  | ldi a imm => exact absurd rfl h
  | _ => rfl

theorem Instr.badOperand?_eq_find? {i : Instr} (h : i.mnemonic.format ≠ .f2ri) :
    i.badOperand? = i.operands.find? (fun k => decide (7 < k.toNat)) := by
  rw [Instr.badOperand?, Instr.registerOperands_eq_operands h]

theorem Mnemonic.eq_ldi_of_format {k : Mnemonic} (h : k.format = .f2ri) : k = .ldi := by
  cases k with
  | ldi => rfl
  | _ => cases h

/-! ### The decoder on an encoded instruction -/

/-- What the decoder answers on an instruction's own bytes: the instruction, or its first register operand above 7. -/
theorem decodeWith_encodeWith {m : OpcodeMap} (hm : m.Legal) (i : Instr) (rest : List Byte) :
    decodeWith m (encodeWith m i ++ rest) =
      i.badOperand?.elim (.instr i rest) (.registerIndexOutOfRange (m i.mnemonic)) := by
  have hcount := hm.operandCount_mnemonic i
  have hlen : ¬ (i.operands ++ rest).length < operandCount (m i.mnemonic) := by
    rw [hcount, List.length_append]
    omega
  rw [encodeWith, List.cons_append, decodeWith, if_neg hlen, hm.lookup_self, hcount, List.take_left, List.drop_left]
  simp only [Instr.instr?_operands]
  cases i.badOperand? <;> rfl

/-- Settles O1: a well-formed instruction has no register operand to refuse. -/
theorem decodeOfEncodeIsTheInstruction : Obligations.DecodeOfEncodeIsTheInstruction := by
  intro m i rest hm hwf
  have hgood : i.badOperand? = none := Option.isNone_iff_eq_none.mp hwf
  rw [decodeWith_encodeWith hm, hgood]
  rfl

/-- Settles O3: a legal map's bits 7:6 are the operand count, and no format has more than two operand bytes. -/
theorem instructionLengthIsOnePlusOpcodeBits : Obligations.InstructionLengthIsOnePlusOpcodeBits := by
  intro m i hm
  rw [← operandCount_eq_div]
  refine ⟨?length, ?bound⟩
  case length => rw [encodeWith_length, hm.operandCount_mnemonic, Nat.add_comm]
  case bound =>
    rw [hm.count]
    exact Format.operandBytes_le_two _

/-! ### The decoder on any bytes -/

/-- Bytes that end before the operand bytes the opcode byte claims are not decoded (log entry 25). -/
theorem decodeWith_of_length_lt (m : OpcodeMap) {op : Byte} {tail : List Byte} (h : tail.length < operandCount op) :
    decodeWith m (op :: tail) = .incomplete := by
  rw [decodeWith, if_pos h]

/-- Settles O2: the decoder takes the operand bytes apart from the rest and rebuilds the instruction from them. -/
theorem encodeOfDecodeIsTheBytes : Obligations.EncodeOfDecodeIsTheBytes := by
  intro m bytes i rest h
  cases bytes with
  | nil => cases h
  | cons op tail =>
    rcases Nat.lt_or_ge tail.length (operandCount op) with hshort | hlong
    · rw [decodeWith_of_length_lt m hshort] at h
      cases h
    · rcases decodeWith_cases m hlong with ⟨j, hd, hop, hoperands, hgood⟩ | ⟨hd, -⟩ | ⟨j, o, hd, -⟩ <;>
        rw [hd] at h <;> cases h
      refine ⟨Option.isNone_iff_eq_none.mpr hgood, ?_⟩
      rw [encodeWith, hop, hoperands, List.cons_append, List.take_append_drop]

/-- An opcode byte of no instruction is unknown, whatever the operand bytes (R58). -/
theorem decodeWith_of_unknown {m : OpcodeMap} {op : Byte} (h : ∀ k, m k ≠ op) {tail : List Byte}
    (hlen : operandCount op ≤ tail.length) : decodeWith m (op :: tail) = .unknownInstruction op := by
  rw [decodeWith, if_neg (Nat.not_lt.mpr hlen), OpcodeMap.lookup_none.mpr h]

/-- The opcode byte of an instruction, with as many operand bytes as its format has, is that instruction encoded. -/
theorem exists_encodeWith_eq (m : OpcodeMap) {k : Mnemonic} {ops : List Byte}
    (h : ops.length = k.format.operandBytes) :
    ∃ i, k.instr? ops = some i ∧ i.mnemonic = k ∧ i.operands = ops ∧ m k :: ops = encodeWith m i := by
  obtain ⟨i, hi⟩ := Mnemonic.instr?_of_length h
  obtain ⟨rfl, rfl⟩ := Mnemonic.instr?_some hi
  exact ⟨i, hi, rfl, rfl, rfl⟩

/-- Settles O4: the bytes of a known opcode are an encoded instruction, which only a register operand above 7 spoils. -/
theorem decoderClassifiesEveryByteSequence : Obligations.DecoderClassifiesEveryByteSequence := by
  intro m op a b rest hm
  refine ⟨fun hunknown tail hlen => decodeWith_of_unknown hunknown (operandCount_eq_div op ▸ hlen), ?_⟩
  rintro k rfl
  cases hf : k.format with
  | f0 =>
    obtain ⟨i, -, rfl, hops, henc⟩ := exists_encodeWith_eq m (k := k) (ops := []) (by rw [hf]; rfl)
    refine ⟨i, rfl, ?_⟩
    change decodeWith m ([m i.mnemonic] ++ rest) = _
    rw [henc, decodeWith_encodeWith hm, Instr.badOperand?_eq_find? (by rw [hf]; decide), hops]
    rfl
  | f1 =>
    obtain ⟨i, hi, rfl, hops, henc⟩ := exists_encodeWith_eq m (k := k) (ops := [a]) (by rw [hf]; rfl)
    change decodeWith m ([m i.mnemonic, a] ++ rest) = _
    rw [henc, decodeWith_encodeWith hm, Instr.badOperand?_eq_find? (by rw [hf]; decide), hops, hi]
    by_cases ha : 7 < a.toNat <;> simp [ha]
  | f2rr =>
    obtain ⟨i, hi, rfl, hops, henc⟩ := exists_encodeWith_eq m (k := k) (ops := [a, b]) (by rw [hf]; rfl)
    change decodeWith m ([m i.mnemonic, a, b] ++ rest) = _
    rw [henc, decodeWith_encodeWith hm, Instr.badOperand?_eq_find? (by rw [hf]; decide), hops, hi]
    by_cases ha : 7 < a.toNat <;> by_cases hb : 7 < b.toNat <;> simp [ha, hb]
  | f2ri =>
    obtain rfl := Mnemonic.eq_ldi_of_format hf
    refine (decodeWith_encodeWith hm (.ldi a b) rest).trans ?_
    by_cases ha : 7 < a.toNat <;> simp [ha, Instr.badOperand?, Instr.registerOperands, Instr.mnemonic]

/-- Settles O5: ten words evaluated under the default map. -/
theorem sampleWordsDecode : Obligations.SampleWordsDecode := by
  unfold Obligations.SampleWordsDecode
  decide

end Sys2Proof
end

section
/-! PROOFS. The invariant of a run (spec/10_state.md R20, R24; spec/60_exceptions.md R150 to R153): an instruction and
a whole step keep it, and every boot has it. -/

namespace Sys2Proof.Machine

open Sys2Proof

/-! ### The fault record -/

theorem faultRecordTrue_of_isRunning {s : State} (h : s.isRunning) : FaultRecordTrue s := by
  intro c op p hf
  rw [h] at hf
  cases hf

/-- The opcode byte an instruction records is its own, so it can raise the cause (R150 to R153). -/
theorem CanRaise.faultRecordTrue {i : Instr} {c : FaultCause} (h : CanRaise i c) (s : State) :
    FaultRecordTrue (s.raise c (s.opcodeMap i.mnemonic)) := by
  rintro _ _ _ ⟨⟩
  refine ⟨rfl, ?_⟩
  cases c with
  | unknownInstruction => exact h.elim
  | divisionByZero => exact h.imp (congrArg s.opcodeMap) (congrArg s.opcodeMap)
  | registerIndexOutOfRange k => exact ⟨h.1, i.mnemonic, rfl, h.2⟩

theorem LookupRaises.faultRecordTrue {s : State} {op : Byte} {c : FaultCause} (hm : s.opcodeMap.Legal)
    (h : LookupRaises s.opcodeMap op c) : FaultRecordTrue (s.raise c op) := by
  rintro _ _ _ ⟨⟩
  refine ⟨rfl, ?_⟩
  rcases h with ⟨rfl, hunknown⟩ | ⟨o, rfl, ho, hk⟩
  · exact hunknown hm
  · exact ⟨ho, hk⟩

/-- What an instruction leaves a running core with is no fault record, or the true one of the fault it raised. -/
theorem ExecEffect.faultRecordTrue {s t : State} {i : Instr} (h : ExecEffect s i t) (hs : s.isRunning) :
    FaultRecordTrue t := by
  cases h with
  | fault hc => exact hc.faultRecordTrue s
  | hlt => rintro _ _ _ ⟨⟩
  | _ => exact faultRecordTrue_of_isRunning (Eq.trans (b := s.status) (by simp) hs)

/-! ### The invariant -/

theorem State.afterFetch_fetchState_opcodes (s : State) : s.fetchState.afterFetch.opcodes = s.opcodes := by
  rw [State.afterFetch_eq]
  simp [State.fetchState, State.atFetch]

/-- The first three phases keep the canonical form of memory: only a dispatch writes. -/
theorem State.afterFetch_fetchState_wf {s : State} (h : Memory.wf s.mem = true) :
    Memory.wf s.fetchState.afterFetch.mem = true := by
  rw [State.afterFetch_eq, State.setPc_mem, State.fetchState, State.atFetch, State.timerCheck_mem]
  exact State.interruptCheck_wf h

theorem State.opcodeMap_congr {s t : State} (h : t.opcodes = s.opcodes) : t.opcodeMap = s.opcodeMap :=
  congrArg OpcodeTable.map h

theorem State.Inv.afterFetch_fetchState {s : State} (h : s.Inv) (hs : s.isRunning) :
    s.fetchState.afterFetch.Inv where
  opcodes := by
    rw [State.opcodeMap_congr s.afterFetch_fetchState_opcodes]
    exact h.opcodes
  memory := State.afterFetch_fetchState_wf h.memory
  fault := faultRecordTrue_of_isRunning (s.afterFetch_fetchState_status.trans hs)

theorem ExecEffect.inv {s t : State} {i : Instr} (h : ExecEffect s i t) (hs : s.Inv) (hrun : s.isRunning) : t.Inv where
  opcodes := by
    rw [State.opcodeMap_congr h.arguments.2]
    exact hs.opcodes
  memory := h.wf hs.memory
  fault := h.faultRecordTrue hrun

theorem LookupRaises.inv {s : State} {op : Byte} {c : FaultCause} (h : LookupRaises s.opcodeMap op c) (hs : s.Inv) :
    (s.raise c op).Inv where
  opcodes := hs.opcodes
  memory := hs.memory
  fault := h.faultRecordTrue hs.opcodes

/-- Settles O40: the first three phases keep the invariant, and so does the instruction or the lookup's fault. -/
theorem everyStepKeepsTheInvariant : Obligations.EveryStepKeepsTheInvariant := by
  intro s t hs h
  by_cases hrun : s.isRunning
  · have hfetch := hs.afterFetch_fetchState hrun
    rcases step_cases hrun h with ⟨i, -, he⟩ | ⟨c, hc, rfl⟩
    · exact he.inv hfetch (s.afterFetch_fetchState_status.trans hrun)
    · refine LookupRaises.inv ?_ hfetch
      rwa [State.opcodeMap_congr s.afterFetch_fetchState_opcodes]
  · rw [step_stopped hrun] at h
    cases h
    exact hs

/-! ### Boot -/

theorem State.eq_memWriteAll_of_load {s t : State} {words : List Byte} (h : s.load words = some t) :
    t = s.memWriteAll Config.loadBase words := by
  unfold State.load at h
  split at h <;> cases h
  rfl

theorem State.hostReset_inv {s : State} (h : s.opcodeMap.Legal) : s.hostReset.Inv where
  opcodes := h
  memory := rfl
  fault := faultRecordTrue_of_isRunning rfl

theorem State.Inv.memWriteAll {s : State} (h : s.Inv) (addr : Byte) (vs : List Byte) : (s.memWriteAll addr vs).Inv where
  opcodes := by
    rw [State.memWriteAll_frame]
    exact h.opcodes
  memory := State.memWriteAll_wf vs h.memory addr
  fault := by
    rw [State.memWriteAll_frame]
    exact h.fault

/-- Settles O41: by induction on the boot; the state after construction is its own reset. -/
theorem invariantHoldsWhenBooted : Obligations.InvariantHoldsWhenBooted := by
  refine ⟨Booted.reset State.reset State.reset_opcodes_legal, fun s hs => ?_⟩
  induction hs with
  | reset s hm => exact State.hostReset_inv hm
  | load words _ hload ih =>
    obtain rfl := State.eq_memWriteAll_of_load hload
    exact ih.memWriteAll _ words

end Sys2Proof.Machine
end

section
/-! PROOFS. Registers, the stack and the data movement (spec/10_state.md R10 to R13; spec/20_memory.md R34, R35;
spec/42_data_and_stack.md R110 to R115). -/

namespace Sys2Proof.Machine

open Sys2Proof

/-! ### The register write -/

theorem State.setReg_reg_self (s : State) (r : RegId) (v : Byte) : (s.setReg r v).reg r = v := by
  rw [State.setReg_reg, if_pos rfl]

theorem State.setReg_sameRegsBut (s : State) (r : RegId) (v : Byte) : SameRegsBut [r] s (s.setReg r v) :=
  fun q hq => by
    have hne : q ≠ r := List.ne_of_not_mem_cons hq
    rw [State.setReg_reg, if_neg hne]

theorem State.setReg_sameMemory (s : State) (r : RegId) (v : Byte) : SameMemory s (s.setReg r v) :=
  State.setReg_memRead s r v

theorem State.setReg_sameOutside (s : State) (r : RegId) (v : Byte) : SameOutside s (s.setReg r v) :=
  ⟨State.setReg_out s r v, State.setReg_status s r v, State.setReg_ticks s r v, State.setReg_opcodes s r v⟩

/-- Settles O7: the read after the write, and the frame field by field. -/
theorem registerWriteChangesOnlyThatRegister : Obligations.RegisterWriteChangesOnlyThatRegister := fun s r v =>
  ⟨s.setReg_reg_self r v, s.setReg_sameRegsBut r v, s.setReg_pc r v, s.setReg_fl r v, s.setReg_sameMemory r v,
    s.setReg_sameOutside r v⟩

/-! ### Push -/

theorem State.push_reg_sp (s : State) (v : Byte) : (s.push v).reg Config.spReg = s.reg Config.spReg - 1 := by
  rw [State.push_reg, if_pos rfl]

theorem State.push_memRead_self (s : State) (v : Byte) : (s.push v).memRead (s.reg Config.spReg - 1) = v := by
  rw [State.push_memRead, if_pos rfl]

theorem State.push_sameRegsBut (s : State) (v : Byte) : SameRegsBut [Config.spReg] s (s.push v) :=
  fun r hr => by
    have hne : r ≠ Config.spReg := List.ne_of_not_mem_cons hr
    rw [State.push_reg, if_neg hne]

theorem State.push_sameMemoryBut (s : State) (v : Byte) : SameMemoryBut [s.reg Config.spReg - 1] s (s.push v) :=
  fun x hx => by
    have hne : x ≠ s.reg Config.spReg - 1 := List.ne_of_not_mem_cons hx
    rw [State.push_memRead, if_neg hne]

theorem State.push_sameOutside (s : State) (v : Byte) : SameOutside s (s.push v) :=
  ⟨State.push_out s v, State.push_status s v, State.push_ticks s v, State.push_opcodes s v⟩

/-- Settles O9: the push decrements register 7 and writes the one cell there. -/
theorem pushWritesBelowTheStackPointer : Obligations.PushWritesBelowTheStackPointer := fun s v =>
  ⟨s.push_reg_sp v, s.push_memRead_self v, s.push_sameRegsBut v, s.push_sameMemoryBut v, s.push_pc v, s.push_fl v,
    s.push_sameOutside v⟩

/-- What was pushed is on top. -/
theorem State.push_top (s : State) (v : Byte) : (s.push v).top = v := by
  rw [State.top_eq, State.push_reg_sp, State.push_memRead_self]

/-! ### Pop into a register -/

theorem State.popReg_reg_self (s : State) (r : RegId) : (s.popReg r).reg r = s.top := by
  rw [State.popReg_reg, if_pos rfl]

/-- A pop into another register leaves the stack pointer incremented (R114). -/
theorem State.popReg_reg_sp (s : State) {r : RegId} (h : r ≠ Config.spReg) :
    (s.popReg r).reg Config.spReg = s.reg Config.spReg + 1 := by
  rw [State.popReg_reg, if_neg h.symm, if_pos rfl]

theorem State.popReg_sameRegsBut (s : State) (r : RegId) : SameRegsBut [r, Config.spReg] s (s.popReg r) :=
  fun q hq => by
    obtain ⟨hr, hsp⟩ : q ≠ r ∧ q ≠ Config.spReg := by simpa using hq
    rw [State.popReg_reg, if_neg hr, if_neg hsp]

theorem State.popReg_sameMemory (s : State) (r : RegId) : SameMemory s (s.popReg r) := State.popReg_memRead s r

theorem State.popReg_sameOutside (s : State) (r : RegId) : SameOutside s (s.popReg r) :=
  ⟨State.popReg_out s r, State.popReg_status s r, State.popReg_ticks s r, State.popReg_opcodes s r⟩

/-- The pop after a push gives the stack pointer back, the wrapping ones included (R13). -/
theorem State.push_popReg_reg_sp (s : State) (v : Byte) {r : RegId} (h : r ≠ Config.spReg) :
    ((s.push v).popReg r).reg Config.spReg = s.reg Config.spReg := by
  rw [State.popReg_reg_sp _ h, State.push_reg_sp, BitVec.sub_add_cancel]

theorem State.push_popReg_sameRegsBut (s : State) (v : Byte) {r : RegId} (h : r ≠ Config.spReg) :
    SameRegsBut [r] s ((s.push v).popReg r) := fun q hq => by
  by_cases hsp : q = Config.spReg
  · rw [hsp, State.push_popReg_reg_sp s v h]
  · have hr : q ≠ r := List.ne_of_not_mem_cons hq
    rw [State.popReg_sameRegsBut _ r q (by simp [hr, hsp]), State.push_sameRegsBut s v q (by simp [hsp])]

/-! ### The instructions -/

theorem exec_st_regByte (a b : RegId) (s : State) :
    exec (.st (regByte a) (regByte b)) s = .next (s.memWrite (s.reg a) (s.reg b)) :=
  withRegs_regByte .st a b s _

theorem exec_push_regByte (a : RegId) (s : State) : exec (.push (regByte a)) s = .next (s.push (s.reg a)) :=
  withReg_regByte .push a s _

theorem exec_pop_regByte (a : RegId) (s : State) : exec (.pop (regByte a)) s = .next (s.popReg a) :=
  withReg_regByte .pop a s _

/-- Settles O16: both operands in range, so the effect is the register write. -/
theorem loadsWriteTheFirstRegister : Obligations.LoadsWriteTheFirstRegister := fun a b _ s =>
  ⟨withReg_regByte .ldi a s _, withRegs_regByte .ld a b s _⟩

/-- Settles O17: the effect is the memory write at the first register's value. -/
theorem storeWritesTheAddressedCell : Obligations.StoreWritesTheAddressedCell := fun a b s =>
  ⟨_, exec_st_regByte a b s, s.memWrite_memRead_self _ _, s.memWrite_sameMemoryBut _ _, s.memWrite_sameRegs _ _,
    s.memWrite_pc _ _, s.memWrite_fl _ _, s.memWrite_sameOutside _ _⟩

/-- Settles O18: the effect is the push of the register's old value. -/
theorem pushInstructionStoresTheRegister : Obligations.PushInstructionStoresTheRegister := fun a s =>
  ⟨_, exec_push_regByte a s, pushWritesBelowTheStackPointer s (s.reg a)⟩

/-- Settles O19: the effect is the pop, whose register is written last. -/
theorem popInstructionLoadsTheTop : Obligations.PopInstructionLoadsTheTop := fun a s =>
  ⟨_, exec_pop_regByte a s, s.popReg_reg_self a, s.popReg_reg_sp, s.popReg_sameRegsBut a, s.popReg_sameMemory a,
    s.popReg_pc a, s.popReg_fl a, s.popReg_sameOutside a⟩

/-- Settles O20: the pop finds on top what was pushed, and undoes the decrement. -/
theorem pushThenPopRestoresValueAndPointer : Obligations.PushThenPopRestoresValueAndPointer := fun a b s hb =>
  ⟨_, _, exec_push_regByte a s, exec_pop_regByte b _, (State.popReg_reg_self _ b).trans (s.push_top _),
    s.push_popReg_reg_sp _ hb, s.push_popReg_sameRegsBut _ hb, s.push_sameMemoryBut _⟩

end Sys2Proof.Machine
end

section
/-! PROOFS. The ALU instructions with an exact result (spec/41_alu.md R93, R94, R97 to R101). -/

namespace Sys2Proof.Machine

open Sys2Proof

/-- Settles O12: the bits of the four results, each written to the first register. -/
theorem logicIsBitwise : Obligations.LogicIsBitwise := by
  intro a b s
  refine ⟨_, _, _, _, aluBinary_regByte .and _ a b s, aluBinary_regByte .or _ a b s, aluBinary_regByte .xor _ a b s,
    aluUnary_regByte .not _ a s, fun i => ⟨BitVec.getLsbD_and, BitVec.getLsbD_or, BitVec.getLsbD_xor, ?not⟩,
    BitVec.toNat_not⟩
  case not => rw [BitVec.getLsbD_not, decide_eq_true i.isLt, Bool.true_and]

/-- Settles O13: Euclidean division of the register values. -/
theorem quotientAndRemainderMakeUpTheDividend : Obligations.QuotientAndRemainderMakeUpTheDividend := by
  intro a b s hb
  refine ⟨_, _, aluDivide_regByte_of_ne_zero .div _ a hb, aluDivide_regByte_of_ne_zero .mod _ a hb, ?sum, ?bound⟩
  case sum =>
    rw [State.setReg_reg_self, State.setReg_reg_self, BitVec.toNat_udiv, BitVec.toNat_umod]
    exact Nat.div_add_mod' _ _
  case bound =>
    rw [State.setReg_reg_self, BitVec.toNat_umod]
    exact Nat.mod_lt _ (Nat.pos_of_ne_zero fun h => hb (BitVec.eq_of_toNat_eq h))

/-! ### CMP -/

/-- What CMP leaves in `fl` in each case of the unsigned order (R97). -/
theorem compareFlags_cases (x y : Byte) :
    (x.toNat < y.toNat ∧ compareFlags x y = 4) ∨ (y.toNat < x.toNat ∧ compareFlags x y = 2) ∨
      (x = y ∧ compareFlags x y = 1) := by
  rcases Nat.lt_trichotomy x.toNat y.toNat with h | h | h
  · exact .inl ⟨h, if_pos h⟩
  · obtain rfl := BitVec.eq_of_toNat_eq h
    exact .inr (.inr ⟨rfl, by simp [compareFlags, flEqual]⟩)
  · exact .inr (.inl ⟨h, (if_neg h.not_gt).trans (if_pos h)⟩)

/-- Each value of `fl` tells one case of the order, since the cases exclude each other. -/
theorem compareFlags_eq_iff (x y : Byte) :
    (compareFlags x y = 1 ↔ x = y) ∧ (compareFlags x y = 2 ↔ x.toNat > y.toNat) ∧
      (compareFlags x y = 4 ↔ x.toNat < y.toNat) := by
  rw [← BitVec.toNat_inj (x := x)]
  rcases compareFlags_cases x y with ⟨h, hfl⟩ | ⟨h, hfl⟩ | ⟨rfl, hfl⟩ <;> rw [hfl] <;> simp <;> omega

theorem compareFlags_mem (x y : Byte) : compareFlags x y = 1 ∨ compareFlags x y = 2 ∨ compareFlags x y = 4 := by
  rcases compareFlags_cases x y with ⟨-, h⟩ | ⟨-, h⟩ | ⟨-, h⟩ <;> simp [h]

/-- Settles O14: CMP writes `fl` only, with the value the order tells. -/
theorem compareSetsExactlyOneFlag : Obligations.CompareSetsExactlyOneFlag := by
  intro a b s
  obtain ⟨heq, hgreater, hless⟩ := compareFlags_eq_iff (s.reg a) (s.reg b)
  exact ⟨_, execCmp_regByte a b s, heq, hgreater, hless, compareFlags_mem _ _, fun r _ => s.setFl_reg _ r,
    s.setFl_memRead _, s.setFl_pc _, s.setFl_out _, s.setFl_status _, s.setFl_ticks _, s.setFl_opcodes _⟩

/-- Settles O15: the zero divisor raises the fault with the opcode byte of the state's map. -/
theorem divisionByZeroStopsTheCore : Obligations.DivisionByZeroStopsTheCore := fun a _ _ hb =>
  ⟨aluDivide_regByte_of_eq_zero .div _ a hb, aluDivide_regByte_of_eq_zero .mod _ a hb⟩

end Sys2Proof.Machine
end

section
/-! PROOFS. Control flow, output and the end of a run (spec/43_control_flow.md R120 to R130; spec/44_system_io.md R135 to
R138; spec/40_cycle.md R82). -/

namespace Sys2Proof.Machine

open Sys2Proof

/-! ### Jumps -/

/-- A conditional jump sets `pc` to the register's value if its test, as a proposition on `fl`, holds (R123, R130). -/
theorem jumpIf_regByte (m : Mnemonic) {cond : Byte → Bool} {P : Prop} [Decidable P] (a : RegId) {s : State}
    (h : cond s.fl = true ↔ P) :
    jumpIf m cond (regByte a) s = .next { s with pc := if P then s.reg a else s.pc } := by
  rw [jumpIf, withReg_regByte]
  by_cases hP : P
  · rw [if_pos (h.mpr hP), if_pos hP]
    rfl
  · rw [if_neg (mt h.mp hP), if_neg hP]

/-- Settles O21: each condition as an equation or its negation on the whole of `fl`. -/
theorem jumpsTestTheWholeFlagAndWriteOnlyThePc : Obligations.JumpsTestTheWholeFlagAndWriteOnlyThePc := fun a s =>
  ⟨withReg_regByte .jmp a s _, jumpIf_regByte .jeq a beq_iff_eq, jumpIf_regByte .jne a bne_iff_ne,
    jumpIf_regByte .jgt a beq_iff_eq, jumpIf_regByte .jlt a beq_iff_eq, jumpIf_regByte .jle a bne_iff_ne,
    jumpIf_regByte .jge a bne_iff_ne⟩

/-! ### CALL and RET -/

theorem exec_call_regByte (a : RegId) (s : State) :
    exec (.call (regByte a)) s = .next ((s.push s.pc).setPc ((s.push s.pc).reg a)) :=
  withReg_regByte .call a s _

theorem exec_ret (s : State) : exec .ret s = .next (s.drop.setPc s.top) := rfl

/-- Settles O22: the push of `pc`, then the register as the push left it. -/
theorem callPushesTheReturnAddress : Obligations.CallPushesTheReturnAddress := fun a s =>
  ⟨_, exec_call_regByte a s, s.push_reg s.pc a, s.push_reg_sp s.pc, s.push_memRead_self s.pc, s.push_sameRegsBut s.pc,
    s.push_sameMemoryBut s.pc, s.push_fl s.pc, s.push_sameOutside s.pc⟩

/-- Settles O23: the pop, with `pc` at the byte it returned. -/
theorem returnPopsTheAddress : Obligations.ReturnPopsTheAddress := fun s =>
  ⟨_, exec_ret s, s.top_eq, s.drop_reg_sp, s.drop_sameRegsBut, s.drop_sameMemory, s.drop_fl, s.drop_sameOutside⟩

/-- Settles O24: the RET pops what the CALL pushed, and increments what it decremented. -/
theorem returnUndoesCall : Obligations.ReturnUndoesCall := by
  intro a s t u hcall hsp htop
  rw [exec_call_regByte] at hcall
  cases hcall
  refine ⟨_, exec_ret u, ?pc, ?sp⟩
  case pc => exact htop.trans (s.push_top s.pc)
  case sp =>
    have hlower : u.reg 7 = s.reg 7 - 1 := hsp.trans (s.push_reg_sp s.pc)
    refine u.drop_reg_sp.trans ?_
    exact (congrArg (· + 1) hlower).trans (BitVec.sub_add_cancel _ _)

/-! ### Stopped cores -/

/-- A run of one step and more goes on from the state that step answers. -/
theorem core_run_succ {s t : State} (h : step s = .next t) (n : Nat) :
    Sys2Proof.core.run (n + 1) s = Sys2Proof.core.run n t := by
  have hstep : Sys2Proof.core.step s = .next t := h
  simp only [Host.Core.run, hstep]

/-- Settles O35: by induction on the number of steps, each of which answers the state itself (R20). -/
theorem stoppedCoreStaysAsItIs : Obligations.StoppedCoreStaysAsItIs := by
  intro n s hs
  induction n with
  | zero => rfl
  | succ n ih => exact (core_run_succ (step_stopped hs) n).trans ih

/-- Settles O25: HLT sets the run status, and the core it stops stays stopped. -/
theorem haltStopsForGoodAndKeepsTheState : Obligations.HaltStopsForGoodAndKeepsTheState := fun s =>
  ⟨s.halt, rfl, rfl, fun n => stoppedCoreStaysAsItIs n s.halt (by rw [State.halt_status]; decide)⟩

/-! ### Output -/

/-- Settles O26: the operand in range, so the effect is the one event. -/
theorem printAppendsOneEvent : Obligations.PrintAppendsOneEvent := fun a s =>
  ⟨withReg_regByte .prn a s _, withReg_regByte .pra a s _⟩

/-- The digits of a byte: one, two or three of them, as the byte is below 10, below 100 or not (R136). -/
theorem decimalDigits_cases (v : Byte) :
    (v.toNat < 10 ∧ decimalDigits v = [v.toNat]) ∨
      (10 ≤ v.toNat ∧ v.toNat < 100 ∧ decimalDigits v = [v.toNat / 10, v.toNat % 10]) ∨
      (100 ≤ v.toNat ∧ decimalDigits v = [v.toNat / 100, v.toNat / 10 % 10, v.toNat % 10]) := by
  unfold decimalDigits
  rcases Nat.lt_or_ge v.toNat 10 with h | h
  · left
    rw [if_neg (by omega), if_neg (by omega), Nat.mod_eq_of_lt h]
    exact ⟨h, rfl⟩
  · right
    rcases Nat.lt_or_ge v.toNat 100 with h' | h'
    · left
      rw [if_neg (by omega), if_pos h, Nat.mod_eq_of_lt (by omega : v.toNat / 10 < 10)]
      exact ⟨h, h', rfl⟩
    · right
      rw [if_pos h', if_pos h]
      exact ⟨h', rfl⟩

/-- Settles O27: the digits in each of the three lengths; a byte is below 1000, so three are enough. -/
theorem eventTextIsDecimalOrCharacter : Obligations.EventTextIsDecimalOrCharacter := by
  intro v
  have hlt := v.isLt
  refine ⟨rfl, decimalDigits v, rfl, ?_⟩
  rcases decimalDigits_cases v with ⟨h, hd⟩ | ⟨h, h', hd⟩ | ⟨h, hd⟩ <;> rw [hd] <;> simp <;> omega

/-! ### IRET -/

theorem exec_iret (s : State) : exec .iret s = .next s.returnFromInterrupt := rfl

theorem State.returnFromInterrupt_reg_sp (s : State) :
    s.returnFromInterrupt.reg Config.spReg = s.reg Config.spReg + 9 := by
  rw [State.returnFromInterrupt_reg, if_pos rfl]

/-- Every register but the stack pointer gets the byte as far above the stack pointer as its number says (R138). -/
theorem State.returnFromInterrupt_reg_of_ne (s : State) {r : RegId} (h : r ≠ Config.spReg) :
    s.returnFromInterrupt.reg r = s.memRead (s.reg Config.spReg + BitVec.ofNat 8 r.val) := by
  rw [State.returnFromInterrupt_reg, if_neg h]

theorem State.returnFromInterrupt_sameMemory (s : State) : SameMemory s s.returnFromInterrupt := fun x => by
  rw [State.memRead, State.returnFromInterrupt_mem, State.memRead]

theorem State.returnFromInterrupt_sameOutside (s : State) : SameOutside s s.returnFromInterrupt :=
  ⟨s.returnFromInterrupt_out, s.returnFromInterrupt_status, s.returnFromInterrupt_ticks,
    s.returnFromInterrupt_opcodes⟩

/-- Settles O28: the frame read from the stack pointer up. -/
theorem interruptReturnPopsTheFrame : Obligations.InterruptReturnPopsTheFrame := fun s =>
  ⟨_, exec_iret s, fun _ hr => s.returnFromInterrupt_reg_of_ne hr, s.returnFromInterrupt_fl, s.returnFromInterrupt_pc,
    s.returnFromInterrupt_reg_sp, s.returnFromInterrupt_sameMemory, s.returnFromInterrupt_sameOutside⟩

end Sys2Proof.Machine
end

section
/-! PROOFS. Phases 1 and 2, and the return from what phase 1 took (spec/60_exceptions.md R160 to R169). -/

namespace Sys2Proof.Machine

open Sys2Proof

/-! ### Phase 1 with nothing pending -/

/-- No line is taken exactly when no bit of the eight is set (R162). -/
theorem lowestLine?_eq_none_iff {p : Byte} : lowestLine? p = none ↔ ∀ i : Line, p.getLsbD i = false := by
  have hall : ∀ i : Line, i ∈ lines := by decide
  simp [lowestLine?, List.find?_eq_none, hall]

theorem State.interruptCheck_of_lowestLine?_eq_none {s : State} (h : lowestLine? s.pending = none) :
    s.interruptCheck = s := by
  rw [State.interruptCheck, h]

/-- Settles O30: the bit of a line is pending if the mask and the status both have it. -/
theorem nothingPendingNothingDispatched : Obligations.NothingPendingNothingDispatched := by
  intro s h
  refine State.interruptCheck_of_lowestLine?_eq_none (lowestLine?_eq_none_iff.mpr fun i => ?_)
  rw [State.pending, BitVec.getLsbD_and, Bool.eq_false_iff, ne_eq, Bool.and_eq_true]
  exact h i

/-! ### Phase 2 -/

theorem State.timerCheck_isReg_getLsbD (s : State) (j : Nat) :
    ((s.timerCheck true).reg Config.isReg).getLsbD j = (decide (j = 0) || (s.reg Config.isReg).getLsbD j) := by
  rw [State.timerCheck_reg, if_pos ⟨rfl, rfl⟩, BitVec.getLsbD_or, lineBit_getLsbD, Bool.or_comm]
  rfl

theorem State.timerCheck_sameRegsBut (s : State) (b : Bool) : SameRegsBut [Config.isReg] s (s.timerCheck b) :=
  fun q hq => by
    have hne : q ≠ Config.isReg := List.ne_of_not_mem_cons hq
    rw [State.timerCheck_reg, if_neg fun h => hne h.2]

theorem State.timerCheck_sameMemory (s : State) (b : Bool) : SameMemory s (s.timerCheck b) := fun x => by
  rw [State.memRead, State.timerCheck_mem, State.memRead]

theorem State.timerCheck_sameOutside (s : State) (b : Bool) : SameOutside s (s.timerCheck b) :=
  ⟨s.timerCheck_out b, s.timerCheck_status b, s.timerCheck_ticks b, s.timerCheck_opcodes b⟩

/-- The cycle's tick is the head of the ticks to come, and the cycle leaves the tail of them. -/
theorem State.fetchState_of_ticks {s : State} {b : Bool} {later : TickInput} (hhead : s.ticks.head = b)
    (htail : s.ticks.tail = later) :
    s.fetchState = s.takeTick.atFetch b ∧ s.takeTick = { s with ticks := later } := by
  subst hhead htail
  exact ⟨rfl, rfl⟩

/-- Settles O31: phase 2 on the state phase 1 left, with the tick the state's field gives in each of its three forms. -/
theorem tickSetsTheTimerBitAfterTheInterruptCheck : Obligations.TickSetsTheTimerBitAfterTheInterruptCheck := by
  intro s
  refine ⟨rfl, s.interruptCheck.timerCheck_isReg_getLsbD, s.interruptCheck.timerCheck_sameRegsBut true,
    s.interruptCheck.timerCheck_pc true, s.interruptCheck.timerCheck_fl true,
    s.interruptCheck.timerCheck_sameMemory true, s.interruptCheck.timerCheck_sameOutside true, ?bit, ?free, ?silent⟩
  case bit => exact fun b later h => State.fetchState_of_ticks (by rw [h]; rfl) (by rw [h]; rfl)
  case free => exact fun n h => State.fetchState_of_ticks (by rw [h]; rfl) (by rw [h]; rfl)
  case silent => exact fun h => State.fetchState_of_ticks (later := s.ticks) (by rw [h]; rfl) (by rw [h]; rfl)

/-! ### The return -/

/-- The frame a dispatch pushed, counted from the stack pointer it left. -/
theorem State.dispatch_memRead_frame (s : State) (i : Line) {k : Nat} (h : k < 9) :
    (s.dispatch i).memRead (s.reg 7 - 9 + BitVec.ofNat 8 k) = (dispatchFrame s i).getD k 0 := by
  have hoffset : (s.reg 7 - 9 + BitVec.ofNat 8 k - (s.reg 7 - 9)).toNat = k := by
    rw [add_sub_cancel_left, BitVec.toNat_ofNat]
    omega
  rw [State.dispatch_memRead, hoffset, if_pos h]

/-- The frame's byte of a register other than the status register and the stack pointer is that register's value. -/
theorem dispatchFrame_getD_reg (s : State) (i : Line) {r : RegId} (h6 : r ≠ 6) (h7 : r ≠ 7) :
    (dispatchFrame s i).getD r.val 0 = s.reg r := by
  have hlow : ∀ q : RegId, q ≠ 6 → q ≠ 7 → q = 0 ∨ q = 1 ∨ q = 2 ∨ q = 3 ∨ q = 4 ∨ q = 5 := by decide
  rcases hlow r h6 h7 with rfl | rfl | rfl | rfl | rfl | rfl <;> rfl

/-- Settles O32: IRET reads at each place the byte the dispatch pushed there. -/
theorem interruptReturnRestoresTheInterruptedProgram : Obligations.InterruptReturnRestoresTheInterruptedProgram := by
  intro s u i hsp hframe
  have hsp' : u.reg Config.spReg = s.reg 7 - 9 := hsp.trans (s.dispatch_reg i 7)
  have hread {k : Nat} (hk : k < 9) :
      u.memRead (u.reg Config.spReg + BitVec.ofNat 8 k) = (dispatchFrame s i).getD k 0 := by
    rw [hsp', hframe k hk, State.dispatch_memRead_frame s i hk]
  refine ⟨_, exec_iret u, fun r hr => ?regs, u.returnFromInterrupt_fl.trans (hread (k := 7) (by decide)),
    u.returnFromInterrupt_pc.trans (hread (k := 8) (by decide)), fun j => ?status, u.returnFromInterrupt_sameMemory⟩
  case regs =>
    have h6 : r ≠ 6 := List.ne_of_not_mem_cons hr
    by_cases h7 : r = 7
    · subst h7
      have hback : u.reg Config.spReg + 9 = s.reg 7 := by rw [hsp', BitVec.sub_add_cancel]
      exact u.returnFromInterrupt_reg_sp.trans hback
    · rw [u.returnFromInterrupt_reg_of_ne h7, hread (by omega), dispatchFrame_getD_reg s i h6 h7]
  case status =>
    have hpopped : u.returnFromInterrupt.reg 6 = s.reg 6 &&& ~~~lineBit i :=
      (u.returnFromInterrupt_reg_of_ne (by decide)).trans (hread (by decide))
    rw [hpopped, and_not_lineBit_getLsbD]

end Sys2Proof.Machine
end

section
/-! PROOFS. The fetch and the step (spec/40_cycle.md R70 to R82; spec/60_exceptions.md R150 to R157): the bytes fetched, a
step as the execution of the bytes at `pc`, and what every step keeps. -/

namespace Sys2Proof.Machine

open Sys2Proof

/-! ### A register operand out of range -/

/-- The check of one register operand raises the fault of the bad one it is told of (R78). -/
theorem withReg_of_find? {m : Mnemonic} {a k : Byte} (s : State) (f : RegId → Result)
    (h : [a].find? (fun k => decide (7 < k.toNat)) = some k) :
    withReg m a s f = .next (s.raise (.registerIndexOutOfRange k) (s.opcodeMap m)) := by
  have hbad : 7 < k.toNat := by simpa using List.find?_some h
  obtain rfl := List.mem_singleton.mp (List.mem_of_find?_eq_some h)
  exact withReg_bad m hbad s f

/-- The check of two register operands raises the fault of the first bad one (R78). -/
theorem withRegs_of_find? {m : Mnemonic} {a b k : Byte} (s : State) (f : RegId → RegId → Result)
    (h : [a, b].find? (fun k => decide (7 < k.toNat)) = some k) :
    withRegs m a b s f = .next (s.raise (.registerIndexOutOfRange k) (s.opcodeMap m)) := by
  rcases regByte_or_bad a with ⟨ra, rfl⟩ | ⟨ha, -⟩
  · have hgood : ¬ 7 < (regByte ra).toNat := by
      rw [regByte_toNat]
      omega
    rw [List.find?_cons_of_neg (by simpa using hgood)] at h
    exact (withReg_regByte m ra s _).trans (withReg_of_find? s _ h)
  · rw [List.find?_cons_of_pos (by simpa using ha)] at h
    cases h
    exact withRegs_bad_first m ha b s f

/-- Settles O33: every form of register operands checks them before its effect. -/
theorem badRegisterOperandStopsBeforeAnyEffect : Obligations.BadRegisterOperandStopsBeforeAnyEffect := by
  intro i k s h
  cases i with
  | hlt | ret | iret => cases h
  | push a | pop a | prn a | pra a | call a | jmp a | jeq a | jne a | jgt a | jlt a | jle a | jge a | inc a | dec a
  | not a | ldi a imm => exact withReg_of_find? s _ h
  | ld a b | st a b | add a b | sub a b | mul a b | div a b | mod a b | cmp a b | and a b | or a b | xor a b | shl a b
  | shr a b => exact withRegs_of_find? s _ h

/-! ### The fetch -/

/-- A shorter fetch takes the first bytes of a longer one. -/
theorem State.take_fetchedBytes : ∀ {k n : Nat} (s : State), k ≤ n → (s.fetchedBytes n).take k = s.fetchedBytes k
  | 0, _, _, _ => List.take_zero
  | _ + 1, _ + 1, s, h => congrArg (s.fetchedByte :: ·) (State.take_fetchedBytes s.advance (Nat.le_of_succ_le_succ h))

theorem State.bytesAtPc_eq (s : State) : s.bytesAtPc = s.fetchedBytes 4 := by
  simp [State.bytesAtPc, State.fetchedBytes, State.fetchedByte, State.advance, BitVec.add_assoc]

/-- No opcode byte claims more than three operand bytes (R50, R59). -/
theorem operandCount_le_three (op : Byte) : operandCount op ≤ 3 := by
  have hlt := op.isLt
  rw [operandCount_eq_div]
  omega

theorem State.instructionBytes_eq (s : State) :
    s.instructionBytes = s.bytesAtPc.take (1 + operandCount s.fetchedByte) := by
  have hle := operandCount_le_three s.fetchedByte
  rw [State.bytesAtPc_eq, State.take_fetchedBytes s (by omega), Nat.add_comm]
  rfl

/-- Settles O37: the fetch takes the front of the four bytes at `pc`, and moves `pc` as far (R73, R75). -/
theorem fetchTakesTheOpcodeAndItsOperandBytes : Obligations.FetchTakesTheOpcodeAndItsOperandBytes := by
  rintro s n rfl
  rw [← operandCount_eq_div]
  exact ⟨rfl, rfl, s.instructionBytes_eq, s.afterFetch_eq⟩

/-! ### A step executes the bytes at the program counter -/

/-- The bytes behind those the opcode byte claims do not matter to the execution (R60, R76). -/
theorem executeBytes_take {op : Byte} {tail : List Byte} (h : operandCount op ≤ tail.length) (s : State) :
    executeBytes (op :: tail.take (operandCount op)) s = executeBytes (op :: tail) s := by
  have hlong : ¬ tail.length < operandCount op := Nat.not_lt.mpr h
  cases hl : s.opcodeMap.lookup op with
  | none => simp [executeBytes, decodeWith, hlong, hl]
  | some k =>
    cases hi : k.instr? (tail.take (operandCount op)) with
    | none => simp [executeBytes, decodeWith, hlong, List.take_take, hl, hi]
    | some i => cases hb : i.badOperand? <;> simp [executeBytes, decodeWith, hlong, List.take_take, hl, hi, hb]

theorem State.fetchState_opcodeMap (s : State) : s.fetchState.opcodeMap = s.opcodeMap :=
  s.takeTick.atFetch_opcodeMap s.nextTick

/-- The step of a running core: the bytes at `pc` executed on the state the fetch left. -/
theorem step_eq_executeBytes {s : State} (hs : s.isRunning) :
    step s = executeBytes s.fetchState.bytesAtPc s.fetchState.afterFetch := by
  have hcycle : step s = executeBytes s.fetchState.instructionBytes s.fetchState.afterFetch := step_running hs
  rw [hcycle, State.instructionBytes_eq, Nat.add_comm]
  exact executeBytes_take (operandCount_le_three _) _

theorem State.afterFetch_fetchState_opcodeMap (s : State) : s.fetchState.afterFetch.opcodeMap = s.opcodeMap :=
  s.fetchState.afterFetch_opcodeMap.trans s.fetchState_opcodeMap

/-- What decodes to an instruction is as long as its opcode byte says, whatever the map. -/
theorem encodeWith_length_of_decodeWith {m : OpcodeMap} {op : Byte} {tail rest : List Byte} {i : Instr}
    (hlen : operandCount op ≤ tail.length) (h : decodeWith m (op :: tail) = .instr i rest) :
    (encodeWith m i).length = operandCount op + 1 := by
  rcases decodeWith_cases m hlen with ⟨j, hd, -, hoperands, -⟩ | ⟨hd, -⟩ | ⟨j, o, hd, -⟩ <;> rw [hd] at h <;> cases h
  rw [encodeWith_length, hoperands, List.length_take, Nat.min_eq_left hlen]

/-- Settles O38: the instruction decoded is executed where the fetch of its own bytes ended. -/
theorem stepRunsTheDecodedInstruction : Obligations.StepRunsTheDecodedInstruction := by
  intro s i rest hs hd
  have hlen : (encodeWith s.opcodeMap i).length = operandCount s.fetchState.fetchedByte + 1 :=
    encodeWith_length_of_decodeWith (operandCount_le_three _) hd
  have hfetch : s.fetchState.afterFetch =
      { s.fetchState with pc := s.fetchState.pc + BitVec.ofNat 8 (encodeWith s.opcodeMap i).length } := by
    rw [State.afterFetch_eq, hlen, Nat.add_comm, BitVec.ofNat_add, ← BitVec.add_assoc]
    rfl
  rw [step_eq_executeBytes hs, executeBytes, State.afterFetch_fetchState_opcodeMap, hd, ← hfetch]

/-- A fault raised on what the fetch left records the `pc` behind the bytes fetched (R153). -/
theorem State.raise_afterFetch_eq (s : State) (c : FaultCause) (op : Byte) :
    s.afterFetch.raise c op =
      { s with
        pc := s.pc + 1 + BitVec.ofNat 8 (operandCount s.fetchedByte)
        status := .faulted c op (s.pc + 1 + BitVec.ofNat 8 (operandCount s.fetchedByte)) } := by
  rw [State.afterFetch_eq]
  rfl

/-- Settles O39: the decoder's fault is raised where the fetch ended. -/
theorem stepRaisesTheDecodersFault : Obligations.StepRaisesTheDecodersFault := by
  rintro s _ k _ hs rfl rfl
  rw [← operandCount_eq_div, step_eq_executeBytes hs, executeBytes, State.afterFetch_fetchState_opcodeMap]
  constructor <;> intro hd <;> rw [hd] <;> exact congrArg Host.Outcome.next (s.fetchState.raise_afterFetch_eq _ _)

/-! ### What every step keeps -/

/-- Settles O36: the instruction fetched raises a fault, is HLT, or keeps the run status; the lookup raises a fault. -/
theorem everyCycleEndsInOneOfThreeWays : Obligations.EveryCycleEndsInOneOfThreeWays := by
  intro s hs
  have hfetch : s.fetchState.afterFetch.status = .running := s.afterFetch_fetchState_status.trans hs
  obtain ⟨t, ht⟩ := step_answers_next s
  refine ⟨hfetch, t, ht, ?_⟩
  rcases step_cases hs ht with ⟨i, hop, he⟩ | ⟨c, -, rfl⟩
  · rcases he.status_cases with ⟨c, op, rfl⟩ | ⟨rfl, rfl⟩ | hkeep
    · exact .inr (.inr ⟨c, op, _, rfl⟩)
    · exact .inr (.inl ⟨rfl, hop.symm⟩)
    · exact .inl (hkeep.trans hfetch)
  · exact .inr (.inr ⟨c, _, _, rfl⟩)

theorem State.afterFetch_fetchState_ticks (s : State) : s.fetchState.afterFetch.ticks = s.ticks.tail := by
  rw [State.afterFetch_eq]
  simp [State.fetchState, State.atFetch]

/-- Settles O42: neither the instruction nor a fault touches the two arguments the first phases left. -/
theorem stepKeepsTheOpcodeMapAndTakesOneTick : Obligations.StepKeepsTheOpcodeMapAndTakesOneTick := by
  intro s t h
  by_cases hs : s.isRunning
  · rw [if_pos hs, ← s.afterFetch_fetchState_opcodes, ← s.afterFetch_fetchState_ticks]
    rcases step_cases hs h with ⟨i, -, he⟩ | ⟨c, -, rfl⟩
    · exact he.arguments.symm
    · exact ⟨rfl, rfl⟩
  · rw [step_stopped hs] at h
    cases h
    exact ⟨rfl, (if_neg hs).symm⟩

end Sys2Proof.Machine
end

section
/-! PROOFS. What the instructions leave alone (spec/10_state.md R18; spec/20_memory.md R33; spec/40_cycle.md R77): the
writers of the flags, of memory, of `pc`, of the output and of the registers. -/

namespace Sys2Proof.Machine

open Sys2Proof

/-! ### The flags -/

/-- `fl` is kept, or CMP has put a comparison's value in it, or IRET has loaded it (R18). -/
theorem ExecEffect.fl_cases {s t : State} {i : Instr} (h : ExecEffect s i t) :
    t.fl = s.fl ∨ (i.mnemonic = .cmp ∧ ∃ x y, t.fl = compareFlags x y) ∨ i.mnemonic = .iret := by
  cases h with
  | compare x y => exact .inr (.inl ⟨rfl, x, y, rfl⟩)
  | iret => exact .inr (.inr rfl)
  | _ => exact .inl (by simp)

/-- Settles O44: the other effects keep `fl`. -/
theorem onlyCompareAndInterruptReturnWriteTheFlags : Obligations.OnlyCompareAndInterruptReturnWriteTheFlags := by
  intro i s t h hcmp hiret
  rcases (exec_next_effect h).fl_cases with hkeep | ⟨hmn, -⟩ | hmn
  · exact hkeep
  · exact absurd hmn hcmp
  · exact absurd hmn hiret

theorem FlDefined.congr {s t : State} (hs : FlDefined s) (h : t.fl = s.fl) : FlDefined t := by
  rwa [FlDefined, h]

theorem ExecEffect.flDefined {s t : State} {i : Instr} (h : ExecEffect s i t) (hs : FlDefined s)
    (hiret : i.mnemonic ≠ .iret) : FlDefined t := by
  rcases h.fl_cases with hkeep | ⟨-, x, y, hfl⟩ | hmn
  · exact hs.congr hkeep
  · exact .inr (by rw [hfl]; exact compareFlags_mem x y)
  · exact absurd hmn hiret

theorem State.afterFetch_fetchState_fl (s : State) : s.fetchState.afterFetch.fl = s.fl := by
  rw [State.afterFetch_eq]
  simp [State.fetchState, State.atFetch]

/-- Settles O43: the instruction fetched is not IRET, since its opcode byte is not IRET's. -/
theorem flagStaysDefinedWithoutInterruptReturn : Obligations.FlagStaysDefinedWithoutInterruptReturn := by
  intro s t hs hop h
  by_cases hrun : s.isRunning
  · have hfetch : FlDefined s.fetchState.afterFetch := hs.congr s.afterFetch_fetchState_fl
    rcases step_cases hrun h with ⟨i, hi, he⟩ | ⟨c, -, rfl⟩
    · exact he.flDefined hfetch fun hiret => hop (by rw [← hiret]; exact hi.symm)
    · exact hfetch.congr (State.raise_fl _ c _)
  · rw [step_stopped hrun] at h
    cases h
    exact hs

/-! ### Memory -/

theorem regByte_injective : Function.Injective regByte := fun r q h => by
  have hidx := congrArg regIdx? h
  rwa [regIdx?_regByte, regIdx?_regByte, Option.some.injEq] at hidx

/-- Memory is kept, or ST has written the cell its first register addresses, or PUSH or CALL the cell below the stack
pointer. -/
theorem ExecEffect.memory_cases {s t : State} {i : Instr} (h : ExecEffect s i t) :
    SameMemory s t ∨ (∃ ra b, i = .st (regByte ra) b ∧ SameMemoryBut [s.reg ra] s t) ∨
      ∃ a, (i = .push a ∨ i = .call a) ∧ SameMemoryBut [s.reg 7 - 1] s t := by
  cases h with
  | store ra rb ha => exact .inr (.inl ⟨ra, _, by rw [ha], s.memWrite_sameMemoryBut _ _⟩)
  | push r => exact .inr (.inr ⟨_, .inl rfl, s.push_sameMemoryBut _⟩)
  | call r => exact .inr (.inr ⟨_, .inr rfl, s.push_sameMemoryBut _⟩)
  | iret => exact .inl s.returnFromInterrupt_sameMemory
  | _ => exact .inl fun x => by simp

theorem exec_sameMemory_of_not_wf {i : Instr} {s t : State} (h : exec i s = .next t) (hwf : i.wf = false) :
    SameMemory s t := by
  cases hbad : i.badOperand? with
  | none => simp [Instr.wf, hbad] at hwf
  | some k =>
    rw [badRegisterOperandStopsBeforeAnyEffect i k s hbad] at h
    cases h
    exact fun _ => rfl

/-- Settles O45: the cell each of the three writes, and none for the others. -/
theorem onlyStorePushAndCallWriteMemory : Obligations.OnlyStorePushAndCallWriteMemory := by
  intro i s t h
  refine ⟨exec_sameMemory_of_not_wf h, ?_⟩
  rcases (exec_next_effect h).memory_cases with hsame | ⟨ra, b, rfl, hcell⟩ | ⟨a, rfl | rfl, hcell⟩
  · cases i with
    | st a b => exact fun _ _ x _ => hsame x
    | push a | call a => exact fun x _ => hsame x
    | _ => exact hsame
  · intro ra' hra
    rwa [← regByte_injective hra]
  · exact hcell
  · exact hcell

/-! ### The program counter and the output -/

theorem ExecEffect.pc_eq {s t : State} {i : Instr} (h : ExecEffect s i t)
    (hi : i.mnemonic ∉ jumps ++ [.call, .ret, .iret]) : t.pc = s.pc := by
  cases h with
  | jump target hj => exact absurd (List.mem_append_left _ hj) hi
  | call r => exact absurd (show Mnemonic.call ∈ _ by decide) hi
  | ret => exact absurd (by decide) hi
  | iret => exact absurd (by decide) hi
  | _ => simp

/-- The output is kept, or PRN or PRA has appended one event (R21). -/
theorem ExecEffect.out_cases {s t : State} {i : Instr} (h : ExecEffect s i t) :
    t.out = s.out ∨ i.mnemonic ∈ [.prn, .pra] ∧ ∃ e, t.out = s.out ++ [e] := by
  cases h with
  | prn v => exact .inr ⟨show Mnemonic.prn ∈ _ by decide, _, rfl⟩
  | pra v => exact .inr ⟨show Mnemonic.pra ∈ _ by decide, _, rfl⟩
  | _ => exact .inl (by simp)

/-- Settles O46: each field by its writers. -/
theorem onlyControlFlowWritesThePcAndOnlyPrintsTheOutput :
    Obligations.OnlyControlFlowWritesThePcAndOnlyPrintsTheOutput := by
  intro i s t h
  have he := exec_next_effect h
  refine ⟨he.pc_eq, fun hprint => ?keep, ?grow, he.arguments⟩
  case keep => exact he.out_cases.resolve_right fun hout => hprint hout.1
  case grow =>
    rcases he.out_cases with hkeep | ⟨-, e, happend⟩
    · exact ⟨[], by rw [hkeep, List.append_nil]⟩
    · exact ⟨[e], happend.symm⟩

/-! ### The registers -/

/-- Inversion: a one-register form that answered a state had its effect on the register named, or raised a fault. -/
theorem withReg_next {m : Mnemonic} {a : Byte} {s t : State} {f : RegId → Result} (h : withReg m a s f = .next t) :
    (∃ ra, a = regByte ra ∧ f ra = .next t) ∨ ∃ c op, t = s.raise c op := by
  rcases withReg_cases m a s f with ⟨ra, ha, he⟩ | ⟨-, he⟩
  · exact .inl ⟨ra, ha, he.symm.trans h⟩
  · rw [he] at h
    cases h
    exact .inr ⟨_, _, rfl⟩

theorem withRegs_next {m : Mnemonic} {a b : Byte} {s t : State} {f : RegId → RegId → Result}
    (h : withRegs m a b s f = .next t) :
    (∃ ra rb, a = regByte ra ∧ f ra rb = .next t) ∨ ∃ c op, t = s.raise c op := by
  rcases withReg_next h with ⟨ra, ha, hf⟩ | hraise
  · rcases withReg_next hf with ⟨rb, -, hf⟩ | hraise
    · exact .inl ⟨ra, rb, ha, hf⟩
    · exact .inr hraise
  · exact .inr hraise

/-- One register was written, the one an operand byte names, or a fault was raised. -/
def RegisterWrittenOrFault (a : Byte) (s t : State) : Prop :=
  (∃ r v, a = regByte r ∧ t = s.setReg r v) ∨ ∃ c op, t = s.raise c op

theorem withReg_registerWrittenOrFault {m : Mnemonic} {a : Byte} {s t : State} {v : RegId → Byte}
    (h : withReg m a s (fun ra => .next (s.setReg ra (v ra))) = .next t) : RegisterWrittenOrFault a s t := by
  rcases withReg_next h with ⟨ra, ha, hf⟩ | hraise
  · cases hf
    exact .inl ⟨ra, _, ha, rfl⟩
  · exact .inr hraise

theorem withRegs_registerWrittenOrFault {m : Mnemonic} {a b : Byte} {s t : State} {v : RegId → RegId → Byte}
    (h : withRegs m a b s (fun ra rb => .next (s.setReg ra (v ra rb))) = .next t) : RegisterWrittenOrFault a s t := by
  rcases withRegs_next h with ⟨ra, rb, ha, hf⟩ | hraise
  · cases hf
    exact .inl ⟨ra, _, ha, rfl⟩
  · exact .inr hraise

theorem aluDivide_registerWrittenOrFault {m : Mnemonic} {f : Byte → Byte → Byte} {a b : Byte} {s t : State}
    (h : aluDivide m f a b s = .next t) : RegisterWrittenOrFault a s t := by
  rcases withRegs_next h with ⟨ra, rb, ha, hf⟩ | hraise
  · split at hf <;> cases hf
    · exact .inr ⟨_, _, rfl⟩
    · exact .inl ⟨ra, _, ha, rfl⟩
  · exact .inr hraise

/-- The register-only instructions, each by its form. -/
theorem exec_registerWrittenOrFault (a b : Byte) (s t : State) :
    ∀ i ∈ [Instr.add a b, .sub a b, .mul a b, .div a b, .mod a b, .and a b, .or a b, .xor a b, .shl a b, .shr a b,
      .inc a, .dec a, .not a, .ldi a b, .ld a b],
    exec i s = .next t → RegisterWrittenOrFault a s t := by
  simp only [List.forall_mem_cons]
  exact ⟨withRegs_registerWrittenOrFault, withRegs_registerWrittenOrFault, withRegs_registerWrittenOrFault,
    aluDivide_registerWrittenOrFault, aluDivide_registerWrittenOrFault, withRegs_registerWrittenOrFault,
    withRegs_registerWrittenOrFault, withRegs_registerWrittenOrFault, withRegs_registerWrittenOrFault,
    withRegs_registerWrittenOrFault, withReg_registerWrittenOrFault, withReg_registerWrittenOrFault,
    withReg_registerWrittenOrFault, withReg_registerWrittenOrFault, withRegs_registerWrittenOrFault,
    List.forall_mem_nil _⟩

/-- Settles O47: a register write and a raised fault have these frames. -/
theorem registerInstructionsWriteOneRegister : Obligations.RegisterInstructionsWriteOneRegister := by
  intro a b s t i hi h
  rcases exec_registerWrittenOrFault a b s t i hi h with ⟨r, v, rfl, rfl⟩ | ⟨c, op, rfl⟩
  · refine ⟨fun q hq => s.setReg_sameRegsBut r v q ?_, s.setReg_fl r v, s.setReg_pc r v, s.setReg_sameMemory r v,
      s.setReg_out r v, ⟨s.setReg_ticks r v, s.setReg_opcodes r v⟩, .inl (s.setReg_status r v)⟩
    exact fun hmem => hq (congrArg regByte (List.mem_singleton.mp hmem))
  · exact ⟨fun q _ => s.raise_reg c op q, s.raise_fl c op, s.raise_pc c op, s.raise_memRead c op, s.raise_out c op,
      ⟨s.raise_ticks c op, s.raise_opcodes c op⟩, .inr ⟨c, op, s.raise_status c op⟩⟩

/-- The instructions that write no register. -/
def registerKeepers : List Mnemonic :=
  [.cmp, .st, .jmp, .jeq, .jne, .jgt, .jlt, .jle, .jge, .hlt, .prn, .pra]

theorem ExecEffect.sameRegs {s t : State} {i : Instr} (h : ExecEffect s i t) (hi : i.mnemonic ∈ registerKeepers) :
    SameRegsBut [] s t := by
  have hdisjoint : ∀ k ∈ registerOnly, k ∉ registerKeepers := by decide
  cases h with
  | register r v hr => exact absurd hi (hdisjoint _ hr)
  | push r => exact absurd hi (show Mnemonic.push ∉ _ by decide)
  | pop r _ => exact absurd hi (show Mnemonic.pop ∉ _ by decide)
  | call r => exact absurd hi (show Mnemonic.call ∉ _ by decide)
  | ret => exact absurd hi (by decide)
  | iret => exact absurd hi (by decide)
  | _ => exact fun q _ => by simp

theorem State.raise_sameRegs (s : State) (c : FaultCause) (op : Byte) (rs : List RegId) :
    SameRegsBut rs s (s.raise c op) := fun q _ => s.raise_reg c op q

/-- A one-register form leaves the registers that its effect leaves, since a raised fault leaves all. -/
theorem withReg_sameRegsBut {m : Mnemonic} {a : Byte} {s t : State} {rs : List RegId} {g : RegId → State}
    (hg : ∀ ra, SameRegsBut rs s (g ra)) (h : withReg m a s (fun ra => .next (g ra)) = .next t) :
    SameRegsBut rs s t := by
  rcases withReg_next h with ⟨ra, -, hf⟩ | ⟨c, op, rfl⟩
  · cases hf
    exact hg ra
  · exact s.raise_sameRegs c op rs

/-- PUSH, CALL and RET write the stack pointer only. -/
theorem exec_sameRegsBut_sp (a : Byte) (s t : State) :
    ∀ i ∈ [Instr.push a, .call a, .ret], exec i s = .next t → SameRegsBut [7] s t := by
  simp only [List.forall_mem_cons]
  refine ⟨withReg_sameRegsBut fun ra => s.push_sameRegsBut (s.reg ra),
    withReg_sameRegsBut fun _ => s.push_sameRegsBut s.pc, fun h => ?ret, List.forall_mem_nil _⟩
  case ret =>
    cases h
    exact s.drop_sameRegsBut

theorem exec_pop_regs {a : Byte} {s t : State} (h : exec (.pop a) s = .next t) {r : RegId} (hsp : r ≠ 7)
    (hr : regByte r ≠ a) : t.reg r = s.reg r := by
  rcases withReg_next h with ⟨ra, rfl, hf⟩ | ⟨c, op, rfl⟩
  · cases hf
    have hne : r ≠ ra := fun hra => hr (congrArg regByte hra)
    exact s.popReg_sameRegsBut ra r (by simp [hne, hsp, Config.spReg])
  · exact s.raise_reg c op r

/-- Only HLT stops the core without a fault. -/
theorem exec_statusSameOrFault {i : Instr} {s t : State} (hi : i ≠ .hlt) (h : exec i s = .next t) :
    StatusSameOrFault s t := by
  rcases (exec_next_effect h).status_cases with ⟨c, op, rfl⟩ | ⟨rfl, -⟩ | hkeep
  · exact .inr ⟨c, op, rfl⟩
  · exact absurd rfl hi
  · exact .inl hkeep

/-- Settles O48: the frame of each group of instructions. -/
theorem otherInstructionsWriteNoOtherRegister : Obligations.OtherInstructionsWriteNoOtherRegister := fun a _ s t =>
  ⟨fun _ hi h => (exec_next_effect h).sameRegs (List.mem_map_of_mem (f := Instr.mnemonic) hi),
    exec_sameRegsBut_sp a s t, fun h _ => exec_pop_regs h, fun _ => exec_statusSameOrFault⟩

end Sys2Proof.Machine
end

section
/-! PROOFS. Reset, LOAD and the first cycle (spec/10_state.md R25; spec/70_reset_and_hazards.md R180 to R183). -/

namespace Sys2Proof.Machine

open Sys2Proof

/-! ### Reset -/

/-- Unwritten memory reads as the reset contents (R25). -/
theorem State.resetWith_memRead (opcodes : OpcodeTable) (ticks : TickInput) (addr : Byte) :
    (State.resetWith opcodes ticks).memRead addr = 0 := rfl

/-- Settles O6: both resets are the construction, with some opcode map and some ticks. -/
theorem resetStateIsTheSources : Obligations.ResetStateIsTheSources := by
  rintro s _ (rfl | rfl)
  · exact ⟨State.resetWith_memRead _ _, rfl, rfl, rfl, rfl, rfl, fun h => by rw [h]; exact ⟨rfl, rfl⟩⟩
  · exact ⟨State.resetWith_memRead _ _, rfl, rfl, rfl, rfl, rfl, fun _ => ⟨rfl, rfl⟩⟩

/-! ### LOAD -/

/-- The memory after consecutive writes, cell by cell: at most 256 bytes, so that none is written over (R183). -/
theorem State.memWriteAll_memRead : ∀ (vs : List Byte) (s : State) (addr x : Byte), vs.length ≤ 256 →
    (s.memWriteAll addr vs).memRead x = vs.getD (x - addr).toNat (s.memRead x)
  | [], _, _, _, _ => rfl
  | v :: vs, s, addr, x, hlen => by
    rw [List.length_cons] at hlen
    rw [State.memWriteAll, State.memWriteAll_memRead vs _ _ x (by omega), State.memWrite_memRead]
    by_cases hx : x = addr
    · have hlast : (x - (addr + 1)).toNat = 255 := by bv_omega
      have hfirst : (x - addr).toNat = 0 := by bv_omega
      rw [hlast, hfirst, if_pos hx, List.getD_eq_default _ _ (by omega), List.getD_cons_zero]
    · have hnext : (x - addr).toNat = (x - (addr + 1)).toNat + 1 := by bv_omega
      rw [hnext, if_neg hx, List.getD_cons_succ]

theorem State.memWriteAll_sameRegs (s : State) (addr : Byte) (vs : List Byte) :
    SameRegsBut [] s (s.memWriteAll addr vs) := fun r _ => by
  rw [State.memWriteAll_frame]
  rfl

theorem State.memWriteAll_sameOutside (s : State) (addr : Byte) (vs : List Byte) :
    SameOutside s (s.memWriteAll addr vs) := by
  rw [State.memWriteAll_frame]
  exact ⟨rfl, rfl, rfl, rfl⟩

theorem State.memWriteAll_pc (s : State) (addr : Byte) (vs : List Byte) : (s.memWriteAll addr vs).pc = s.pc := by
  rw [State.memWriteAll_frame]

theorem State.memWriteAll_fl (s : State) (addr : Byte) (vs : List Byte) : (s.memWriteAll addr vs).fl = s.fl := by
  rw [State.memWriteAll_frame]

/-- Settles O49: the bound of the image, and the cells it is written to. -/
theorem loadPlacesTheImageAtZero : Obligations.LoadPlacesTheImageAtZero := by
  intro s image
  refine ⟨fun hlong => if_neg (Nat.not_le.mpr hlong), fun hlen => ⟨_, if_pos hlen, fun addr => ?_,
    s.memWriteAll_sameRegs _ image, s.memWriteAll_pc _ image, s.memWriteAll_fl _ image,
    s.memWriteAll_sameOutside _ image⟩⟩
  rw [State.memWriteAll_memRead image s _ addr hlen, Config.loadBase, sub_zero]

/-! ### The first cycle -/

/-- The reset values but for memory, which LOAD has written since (R25, R182). -/
structure State.AtStart (s : State) : Prop where
  running : s.isRunning
  regs : ∀ r : RegId, s.reg r = if r = Config.spReg then Config.spReset else Config.regReset
  fl : s.fl = Config.flReset
  out : s.out = []
  pc : s.pc = Config.pcReset

theorem State.hostReset_atStart (s : State) : s.hostReset.AtStart where
  running := rfl
  regs r := by fin_cases r <;> rfl
  fl := rfl
  out := rfl
  pc := rfl

theorem State.AtStart.memWriteAll {s : State} (h : s.AtStart) (addr : Byte) (vs : List Byte) :
    (s.memWriteAll addr vs).AtStart := by
  rw [State.memWriteAll_frame]
  exact ⟨h.running, h.regs, h.fl, h.out, h.pc⟩

theorem Booted.atStart {s : State} (h : Booted s) : s.AtStart := by
  induction h with
  | reset s _ => exact s.hostReset_atStart
  | load words _ hload ih =>
    obtain rfl := State.eq_memWriteAll_of_load hload
    exact ih.memWriteAll _ words

/-- The mask register is zero, so no line is enabled (log entry 2). -/
theorem State.AtStart.pending {s : State} (h : s.AtStart) : s.pending = 0 := by
  have hmask : s.reg Config.imReg = 0 := h.regs Config.imReg
  rw [State.pending, hmask]
  exact BitVec.zero_and

/-- With nothing pending the fetch happens in the state itself but for the tick. -/
theorem State.fetchState_of_pending_eq_zero {s : State} (h : s.pending = 0) :
    s.fetchState = s.takeTick.timerCheck s.nextTick := by
  have hnone : lowestLine? s.takeTick.pending = none := lowestLine?_eq_none_iff.mpr fun i => by
    have hpending : s.takeTick.pending = 0 := h
    rw [hpending]
    exact BitVec.getLsbD_zero
  rw [State.fetchState, State.atFetch, State.interruptCheck_of_lowestLine?_eq_none hnone]

/-- Settles O50: every boot leaves the reset values, with which phase 1 does nothing. -/
theorem firstCycleFetchesAtAddressZero : Obligations.FirstCycleFetchesAtAddressZero := by
  intro s hs
  have h := hs.atStart
  refine ⟨h.running, h.regs 7, fun r hr => (h.regs r).trans (if_neg hr), h.fl, h.out, h.pending, h.pc, ?_⟩
  rw [State.fetchState_of_pending_eq_zero h.pending]
  exact ⟨(s.takeTick.timerCheck_pc _).trans h.pc, s.takeTick.timerCheck_sameMemory _⟩

end Sys2Proof.Machine
end
